-- ==== Sys2Proof/Word.lean ====
section
/-! DEFINITION. The value types of the block: single bits and the fixed register widths of spec/10_state.md. -/

namespace Sys2Proof

/-- A bit value, `true` for 1 and `false` for 0 (R9). -/
abbrev Bit := Bool

/-- The bit-count register's type: CNT_W = 7 bits for this hardware (R6). Every legal MAX_BITS is at most 127, so seven bits
hold every legal count. -/
abbrev Count := BitVec 7

/-- How many bits the value `n` needs, `ceil(log2(n + 1))`: the width formula of R6 and decision D27. -/
def bitsFor (n : Nat) : Nat :=
  if n = 0 then 0 else n.log2 + 1

end Sys2Proof
end

