-- ==== Sys2Proof/Config.lean ====
section
/-! DEFINITION. What an instance of the block fixes (the parameters of R6) and the free values: opaque constants for what
the spec leaves to the outside world or calls unspecified (spec/93_implementation_defined.md). -/

namespace Sys2Proof

/-- The elaboration-time parameters of R6. They are data of the state that no step changes, so that every statement about a
state holds for every value of them (R6: a model takes each as an argument). -/
structure Params where
  /-- `MAX_BITS`, capacity of the bit buffer in bits. -/
  maxBits : Nat
  /-- `QUIET_CYCLES`, the quiet interval in clock cycles; OPEN in the spec. -/
  quietCycles : Nat
  /-- `SYNC_STAGES`, flip-flops per line in the input synchroniser. -/
  syncStages : Nat
  deriving DecidableEq, Repr

/-- `CNT_W`, the width of the bit-count register (R6). -/
def Params.cntW (p : Params) : Nat := bitsFor p.maxBits

/-- `ELA_W`, the width of the elapsed-cycle register (R6, D27). -/
def Params.elaW (p : Params) : Nat := bitsFor p.quietCycles

/-- A pin at the clock edge that ends a cycle, as R103 distinguishes it: stable at 0, stable at 1, or changing inside the
flip-flop's setup-and-hold window of that edge. -/
inductive Level where
  | low
  | high
  | changing
  deriving DecidableEq, Repr, Inhabited

/-- The level of a stable pin that carries `b`. -/
def Level.ofBit (b : Bit) : Level := if b then .high else .low

/-- The input pins that may change at any time relative to `clk` (R20: `d0_n`, `d1_n`, and the quasi-static `site_mode`). -/
inductive AsyncPin where
  | d0
  | d1
  | siteMode
  deriving DecidableEq, Repr

/-- The pin-level input vector of one cycle, `{rst, d1_n, d0_n, site_mode}` at the edge that ends it (R71). -/
structure Pins where
  rst : Level
  d1 : Level
  d0 : Level
  siteMode : Level
  deriving DecidableEq, Repr

/-- The registers before the first reset (R232), as raw values. -/
structure PowerUp where
  stages0 : BitVec 4
  stages1 : BitVec 4
  prev0 : Bit
  prev1 : Bit
  count : BitVec 7
  elapsed : BitVec 32
  cfgSite : Bit
  outValid : Bit
  outFmt : BitVec 3
  outFc : BitVec 16
  outCc : BitVec 24
  outUid : BitVec 32
  outNbits : BitVec 7
  deriving DecidableEq, Repr, Inhabited

/-- This hardware's `MAX_BITS` (R6). -/
def Config.maxBits : Nat := 100

/-- This hardware's `SYNC_STAGES` (R6). -/
def Config.syncStages : Nat := 2

/-- The quiet interval of the instance that State.reset describes. DESIGN CHOICE, unsafe (log entry 1): the spec leaves
QUIET_CYCLES open; 10 is the value the derived vectors of spec/95_test_vectors.md use. No statement rests on it: statements
speak of a state's own `params.quietCycles`. -/
def Config.quietCycles : Nat := 10

/-- The parameters of the instance that State.reset describes. -/
def Config.params : Params :=
  { maxBits := Config.maxBits, quietCycles := Config.quietCycles, syncStages := Config.syncStages }

/-- The level `site_mode` had in the reset cycle that State.reset stands after. DESIGN CHOICE, unsafe (log entry 4). -/
def Config.resetSite : Bit := false

/-- FREE VALUE: the sample of a pin that changes inside the setup-and-hold window of the edge ending cycle `cycle`, 0 or 1, a
draw (R103, R241, R243; U5 to U8). Safe (log entry 6). -/
opaque Config.sampleDraw (cycle : Nat) (pin : AsyncPin) : Bit

/-- FREE VALUE: what the host drives on `rst` in a cycle no scheduled input covers; always synchronous (log entry 5). -/
opaque Config.freeRst (cycle : Nat) : Bit

/-- FREE VALUE: the level of an asynchronous pin in a cycle no scheduled input covers (log entry 5). -/
opaque Config.freeLevel (cycle : Nat) (pin : AsyncPin) : Level

/-- FREE VALUE: the content of a buffer cell that nothing has written since power-up (R27, U4). Safe (log entry 2). -/
opaque Config.unwrittenCell (index : Nat) : Bit

/-- FREE VALUE: the registers before the first reset (R232, U3). Safe (log entry 7). -/
opaque Config.powerUp : PowerUp

/-- `ceil(T * F_CLK)` for a duration of `num / den` seconds and a clock of `fClk` hertz (R251): the QUIET_CYCLES a duration
maps to. -/
def Config.cyclesOfDuration (num den fClk : Nat) : Nat := (num * fClk + (den - 1)) / den

end Sys2Proof
end

