-- ==== Sys2Proof/Syntax.lean ====
section
/-! DEFINITION. The operations of the block: one constructor for each row of spec/opcode_table.json. -/

namespace Sys2Proof

/-- The nine operations an execute word selects (R73) and the six decode rules a selector key selects (R75). No operation has
an operand field: what it works on is state and the pins of the cycle (R81, R230). -/
inductive Instr where
  /-- `NOP`, no event and no frame end (R106). -/
  | nop
  /-- `REC0`, append bit 0 (R107). -/
  | rec0
  /-- `REC1`, append bit 1 (R109). -/
  | rec1
  /-- `REC01`, append bit 0 then bit 1 (R110). -/
  | rec01
  /-- `FEND`, decode, emit and clear the frame (R138). -/
  | fend
  /-- `FEND_REC0`, frame end, then append bit 0 (R139). -/
  | fendRec0
  /-- `FEND_REC1`, frame end, then append bit 1 (R140). -/
  | fendRec1
  /-- `FEND_REC01`, frame end, then append bit 0 and bit 1 (R141). -/
  | fendRec01
  /-- `RESET`, reset every register (R230). -/
  | reset
  /-- `DEC_W26N`, 26-bit frame without site code (R162). -/
  | decW26n
  /-- `DEC_W26S`, 26-bit frame with site code (R163). -/
  | decW26s
  /-- `DEC_W35`, 35-bit frame (R164). -/
  | decW35
  /-- `DEC_W37`, 37-bit frame (R165). -/
  | decW37
  /-- `DEC_W32`, 32-bit raw UID (R166). -/
  | decW32
  /-- `DEC_UNK`, any other length (R167). -/
  | decUnk
  deriving DecidableEq, Repr

end Sys2Proof
end

