-- ==== Sys2Proof/WellFormed.lean ====
section
/-! DEFINITION. The checks on what the model is given: parameters, operations, and table words. -/

namespace Sys2Proof

/-- Every parameter lies in its legal range (R6). A configuration outside it does not describe this hardware (R7). -/
abbrev Params.Legal (p : Params) : Prop :=
  (1 ≤ p.maxBits ∧ p.maxBits ≤ 127) ∧
  (1 ≤ p.quietCycles ∧ p.quietCycles ≤ 2 ^ 32 - 1) ∧
  (2 ≤ p.syncStages ∧ p.syncStages ≤ 4)

/-- Every operation is well formed as it stands: no constructor carries an operand field that could be out of range (R81). -/
def Instr.wellFormed : Instr → Bool
  | .nop => true
  | .rec0 => true
  | .rec1 => true
  | .rec01 => true
  | .fend => true
  | .fendRec0 => true
  | .fendRec1 => true
  | .fendRec01 => true
  | .reset => true
  | .decW26n => true
  | .decW26s => true
  | .decW35 => true
  | .decW37 => true
  | .decW32 => true
  | .decUnk => true

/-- A word of the opcode table, `nbits` wide in whole bytes: at most one byte, and no bit above it. -/
def tableWordOk (nbits w : Nat) : Bool :=
  decide (nbits ≤ 8) && decide (w < 256)

end Sys2Proof
end

