-- ==== Sys2Proof/Decode.lean ====
section
/-! DEFINITION. From the two encodings of spec/30_encoding.md (execute word and selector key) to operations, and back. -/

namespace Sys2Proof

/-- A word that selects an operation: an execute word `{rst, fe, e1, e0}` (R72) or a selector key `{cfg_site, count}` (R74). -/
inductive OpWord where
  | execute (xw : BitVec 4)
  | select (sk : BitVec 8)
  deriving DecidableEq, Repr

/-- The execute word `XW = {rst, fe, e1, e0}`, bit 3 down to bit 0 (R72). -/
def executeWord (rst fe e1 e0 : Bit) : BitVec 4 :=
  BitVec.ofBool rst ++ BitVec.ofBool fe ++ BitVec.ofBool e1 ++ BitVec.ofBool e0

/-- The selector key `SK = {cfg_site, count}`, bit 7 the mode and bits 6..0 the count (R74). -/
def selectorKey (site : Bit) (count : Count) : BitVec 8 :=
  BitVec.ofBool site ++ count

/-- The execute-word map (R73): `rst` overrides the other bits; with `rst = 0` the three bits `fe`, `e1`, `e0` select. -/
def decodeExecute (xw : BitVec 4) : Instr :=
  if xw.getLsbD 3 then .reset
  else
    match xw.getLsbD 2, xw.getLsbD 1, xw.getLsbD 0 with
    | false, false, false => .nop
    | false, false, true => .rec0
    | false, true, false => .rec1
    | false, true, true => .rec01
    | true, false, false => .fend
    | true, false, true => .fendRec0
    | true, true, false => .fendRec1
    | true, true, true => .fendRec01

/-- The selector-key map (R75), the rows in order: the count field is compared with the lengths, the mode bit only for 26. -/
def decodeSelect (sk : BitVec 8) : Instr :=
  let site := sk.getLsbD 7
  let count := sk.extractLsb' 0 7
  if count = 26#7 then (if site then .decW26s else .decW26n)
  else if count = 35#7 then .decW35
  else if count = 37#7 then .decW37
  else if count = 32#7 then .decW32
  else .decUnk

/-- The decoder, total: no execute word and no selector key is reserved or illegal (R79). -/
def decode : OpWord → Instr
  | .execute xw => decodeExecute xw
  | .select sk => decodeSelect sk

/-- One word for each operation, from the tables of R73 and R75 with every don't-care bit 0. `DEC_UNK` has no match bits of
its own (mask 0x00): its word here is the key of a one-bit frame (vector DV-UNK-1). -/
def encode : Instr → OpWord
  | .nop => .execute 0b0000
  | .rec0 => .execute 0b0001
  | .rec1 => .execute 0b0010
  | .rec01 => .execute 0b0011
  | .fend => .execute 0b0100
  | .fendRec0 => .execute 0b0101
  | .fendRec1 => .execute 0b0110
  | .fendRec01 => .execute 0b0111
  | .reset => .execute 0b1000
  | .decW26n => .select 0x1A
  | .decW26s => .select 0x9A
  | .decW35 => .select 0x23
  | .decW37 => .select 0x25
  | .decW32 => .select 0x20
  | .decUnk => .select 0x01

/-- A row of the opcode table: a word belongs to it when its bits under `mask` are those of `match`. -/
structure Row (width : Nat) where
  pattern : BitVec width
  mask : BitVec width
  instr : Instr
  deriving DecidableEq, Repr

/-- Whether a word belongs to a row. -/
def Row.covers {width : Nat} (r : Row width) (w : BitVec width) : Bool :=
  w &&& r.mask == r.pattern &&& r.mask

/-- The execute-word rows with match and mask as R73 prints them. -/
def executeRows : List (Row 4) :=
  [⟨0b0000, 0b1111, .nop⟩, ⟨0b0001, 0b1111, .rec0⟩, ⟨0b0010, 0b1111, .rec1⟩, ⟨0b0011, 0b1111, .rec01⟩,
   ⟨0b0100, 0b1111, .fend⟩, ⟨0b0101, 0b1111, .fendRec0⟩, ⟨0b0110, 0b1111, .fendRec1⟩, ⟨0b0111, 0b1111, .fendRec01⟩,
   ⟨0b1000, 0b1000, .reset⟩]

/-- The selector-key rows with match and mask as R75 prints them, in order. -/
def selectorRows : List (Row 8) :=
  [⟨0x1A, 0xFF, .decW26n⟩, ⟨0x9A, 0xFF, .decW26s⟩, ⟨0x23, 0x7F, .decW35⟩, ⟨0x25, 0x7F, .decW37⟩,
   ⟨0x20, 0x7F, .decW32⟩, ⟨0x00, 0x00, .decUnk⟩]

/-- The first row that covers a word (R75: rows are matched in order, the first match wins). -/
def firstMatch {width : Nat} (rows : List (Row width)) (w : BitVec width) : Option Instr :=
  (rows.find? (fun r => r.covers w)).map Row.instr

/-- Which of the two encodings a bare table word is. DESIGN CHOICE (log entry 8): the opcode table lists 4-bit execute words
and 8-bit selector keys without a bit that tells them apart; a one-byte word below 16 is an execute word, any other a
selector key, and a word of no bits is the row `DEC_UNK`, the one row the table gives no bits. -/
def tableWord (nbits w : Nat) : Option OpWord :=
  if tableWordOk nbits w then
    if nbits = 0 then some (encode .decUnk)
    else if w < 16 then some (.execute (BitVec.ofNat 4 w))
    else some (.select (BitVec.ofNat 8 w))
  else none

/-- The operation a table word stands for, `none` where `tableWordOk` rejects the word. -/
def decodeTableWord (nbits w : Nat) : Option Instr :=
  (tableWord nbits w).map decode

end Sys2Proof
end

