-- ==== Sys2Proof/Machine/State.lean ====
section
/-! DEFINITION. The state of the block as plain data, the reasons a step can stop, and the states at power-up and reset. -/

namespace Sys2Proof.Machine

/-- The bit buffer as storage (R27, R50): the cells written since power-up, each with its index, indices strictly rising. A
cell that is not listed has never been written. -/
abbrev Memory := List (Nat × Bit)

/-- The canonical form of the buffer: indices strictly rising, so no index stands twice. -/
abbrev Memory.wf (m : Memory) : Prop :=
  (m.map Prod.fst).Pairwise (· < ·)

/-- The front end of one line `k`: the synchroniser chain `sK[0 .. SYNC_STAGES-1]` (R25, head first) and the previous level
`pK` (R26). -/
structure LineFront where
  stages : List Bit
  prev : Bit
  deriving DecidableEq, Repr

/-- The result registers, the fields of the result record RR (R33 to R37, R78). -/
structure Result where
  /-- `out_fmt` -/
  fmt : BitVec 3
  /-- `out_fc` -/
  fc : BitVec 16
  /-- `out_cc` -/
  cc : BitVec 24
  /-- `out_uid` -/
  uid : BitVec 32
  /-- `out_nbits` -/
  nbits : Count
  deriving DecidableEq, Repr

/-- The whole state at the start of a cycle: the parameters of the instance, every register of R25 to R37, and, as the
model's own fields, the pins already scheduled by the outside world and the counter the free values are indexed by. -/
structure State where
  /-- The parameters of this instance (R6); no step changes them. -/
  params : Params
  /-- `s0[]` and `p0`. -/
  line0 : LineFront
  /-- `s1[]` and `p1`. -/
  line1 : LineFront
  /-- `buf`. -/
  buf : Memory
  /-- `count`. -/
  count : Count
  /-- `elapsed`, ELA_W bits; ELA_W depends on the open QUIET_CYCLES, so the value is a number that the invariant bounds. -/
  elapsed : Nat
  /-- `cfg_site`. -/
  cfgSite : Bit
  /-- `out_valid`. -/
  outValid : Bit
  /-- `out_fmt`, `out_fc`, `out_cc`, `out_uid`, `out_nbits`. -/
  out : Result
  /-- The pin vectors of the current cycle (the head) and of the cycles after it, as far as they are scheduled. -/
  inputs : List Pins
  /-- How many cycles have passed: the index of the free values, which no register of the spec shows. -/
  cycle : Nat
  deriving DecidableEq, Repr

/-- Why the machine stops with a fault. The block itself has no fault (R200). -/
inductive Fault where
  /-- Raised by the decode rules when the frame they read is longer than the buffer, so that an operand cell does not exist
  (R50). Safe: the hardware has no such cell, and no state with `count ≤ MAX_BITS` meets it in a frame-end cycle. `index` is
  the first index that does not exist. -/
  | noSuchCell (index : Nat)
  deriving DecidableEq, Repr

/-- Why an operation is given no meaning. -/
inductive Refusal where
  /-- Raised by an arm of `exec` whose operation has no meaning yet. Safe. No arm raises it now. -/
  | notModelled (mnemonic : String)
  /-- Raised by every operation when a parameter lies outside its legal range: such a configuration is not this hardware and
  a model refuses it (R7, D30). Safe. -/
  | illegalParameters
  /-- Raised by `step` when `rst` changes inside the setup-and-hold window of the edge: a model refuses it (U9). Safe. -/
  | rstNotSynchronous
  deriving DecidableEq, Repr

/-- What an operation or a step answers. -/
abbrev Answer := Host.Outcome State Fault Refusal

/-- A line's front end after reset: every stage and the previous level 1 (R40). -/
def LineFront.afterReset (syncStages : Nat) : LineFront :=
  { stages := List.replicate syncStages true, prev := true }

/-- The result registers after reset (R40). -/
def Result.zero : Result :=
  { fmt := 0#3, fc := 0#16, cc := 0#24, uid := 0#32, nbits := 0#7 }

/-- The state of an instance with parameters `p` right after a reset cycle in which `site_mode` was `site` (R40), nothing
captured since power-up and no input scheduled. -/
def State.resetFor (p : Params) (site : Bit) : State :=
  { params := p
    line0 := LineFront.afterReset p.syncStages
    line1 := LineFront.afterReset p.syncStages
    buf := []
    count := 0#7
    elapsed := 0
    cfgSite := site
    outValid := false
    out := Result.zero
    inputs := []
    cycle := 0 }

/-- The machine right after reset (R40), for the instance and the `site_mode` level that Config names. -/
def State.reset : State :=
  State.resetFor Config.params Config.resetSite

/-- The state before the first reset: every register a free draw inside its width (R232, U3). -/
def State.powerUp (p : Params) : State :=
  { params := p
    line0 := { stages := (List.range p.syncStages).map Config.powerUp.stages0.getLsbD, prev := Config.powerUp.prev0 }
    line1 := { stages := (List.range p.syncStages).map Config.powerUp.stages1.getLsbD, prev := Config.powerUp.prev1 }
    buf := []
    count := BitVec.ofNat 7 (Config.powerUp.count.toNat % 2 ^ p.cntW)
    elapsed := Config.powerUp.elapsed.toNat % 2 ^ p.elaW
    cfgSite := Config.powerUp.cfgSite
    outValid := Config.powerUp.outValid
    out :=
      { fmt := Config.powerUp.outFmt, fc := Config.powerUp.outFc, cc := Config.powerUp.outCc
        uid := Config.powerUp.outUid, nbits := BitVec.ofNat 7 (Config.powerUp.outNbits.toNat % 2 ^ p.cntW) }
    inputs := []
    cycle := 0 }

end Sys2Proof.Machine
end

