-- ==== Sys2Proof/Machine/Ops.lean ====
section
/-! DEFINITION. The named operations over the buffer, the registers, the pins and the answers; every meaning is written with
them. -/

namespace Sys2Proof.Machine

/-! ## Answers -/

/-- Goes on from a next state; a stop stays the stop it is. -/
def onNext (o : Answer) (f : State → State) : Answer :=
  match o with
  | .next t => .next (f t)
  | .fault r => .fault r
  | .refused r => .refused r

/-- An operation has a meaning only on an instance whose parameters are legal (R7: a model refuses any other). -/
def configured (s : State) (o : Answer) : Answer :=
  if s.params.Legal then o else .refused .illegalParameters

/-! ## Registers -/

/-- Writes the two line front ends. -/
def State.setLines (s : State) (l0 l1 : LineFront) : State := { s with line0 := l0, line1 := l1 }

/-- Writes the buffer. -/
def State.setBuf (s : State) (m : Memory) : State := { s with buf := m }

/-- Writes `count`. -/
def State.setCount (s : State) (n : Count) : State := { s with count := n }

/-- Writes `elapsed`. -/
def State.setElapsed (s : State) (n : Nat) : State := { s with elapsed := n }

/-- Writes `cfg_site`. -/
def State.setCfgSite (s : State) (b : Bit) : State := { s with cfgSite := b }

/-- Writes `out_valid`. -/
def State.setOutValid (s : State) (b : Bit) : State := { s with outValid := b }

/-- Writes the five result registers. -/
def State.setOut (s : State) (r : Result) : State := { s with out := r }

/-- Replaces the scheduled pin vectors. -/
def State.setInputs (s : State) (ps : List Pins) : State := { s with inputs := ps }

/-- Ends the cycle: its pin vector is used up and the cycle counter advances. -/
def State.tick (s : State) : State := { s with inputs := s.inputs.tail, cycle := s.cycle + 1 }

/-! ## The bit buffer -/

/-- What was last written at an index, if anything was since power-up. -/
def Memory.lookup : Memory → Nat → Option Bit
  | [], _ => none
  | (a, v) :: rest, i => if a = i then some v else Memory.lookup rest i

/-- Reads a cell: what was last written there, and for a cell nothing has written the free value of its power-up content (R27,
U4). -/
def Memory.read (m : Memory) (i : Nat) : Bit :=
  (m.lookup i).getD (Config.unwrittenCell i)

/-- `BufWrite(i, v)` (R13): writes one cell, keeping the indices strictly rising. -/
def Memory.write : Memory → Nat → Bit → Memory
  | [], i, v => [(i, v)]
  | (a, w) :: rest, i, v =>
    if i < a then (i, v) :: (a, w) :: rest
    else if i = a then (i, v) :: rest
    else (a, w) :: Memory.write rest i v

/-! ## Appending -/

/-- `Append(count, v)` (R104): the length check, the cell write and the count increment in one action, answering whether the
bit was stored; at capacity nothing is written and the bit is dropped. -/
def appendBit (v : Bit) (s : State) : State × Bool :=
  if s.count.toNat < s.params.maxBits then
    ((s.setBuf (s.buf.write s.count.toNat v)).setCount (s.count + 1#7), true)
  else (s, false)

/-- The appends of one cycle in order, each seeing the count the one before it left (R58, R76), and whether any stored a
bit. -/
def appendAll : List Bit → State → State × Bool
  | [], s => (s, false)
  | v :: vs, s =>
    let first := appendBit v s
    let rest := appendAll vs first.1
    (rest.1, first.2 || rest.2)

/-- `ElapsedNext` (R131), `k2` the count after the cycle's clear and appends. -/
def elapsedNext (quietCycles elapsed : Nat) (appended : Bool) (k2 : Count) : Nat :=
  if appended then 1
  else if k2 = 0#7 then 0
  else min (elapsed + 1) quietCycles

/-- The last part of a cycle (R76): the appends, then the elapsed update from the start-of-cycle `elapsed`. -/
def accumulate (bits : List Bit) (s : State) : State :=
  let r := appendAll bits s
  r.1.setElapsed (elapsedNext s.params.quietCycles s.elapsed r.2 r.1.count)

/-! ## The line front ends -/

/-- The synchronised level `sK[SYNC_STAGES-1]` (R25). A chain of the wrong length, which no run has, reads as idle. -/
def LineFront.level (n : Nat) (l : LineFront) : Bit :=
  l.stages.getD (n - 1) true

/-- The clock edge of a cycle with `rst = 0` (R100, R101): the sample `d` enters the chain, every later stage copies the one
before it, and the previous level takes the synchronised level. -/
def LineFront.shift (n : Nat) (d : Bit) (l : LineFront) : LineFront :=
  { stages := (d :: l.stages).take n, prev := l.level n }

/-- The edges of several cycles, the samples in the order of the cycles. -/
def LineFront.feed (n : Nat) (ds : List Bit) (l : LineFront) : LineFront :=
  ds.foldl (fun acc d => acc.shift n d) l

/-- The falling-edge detector `eK = pK AND NOT sK[SYNC_STAGES-1]` (R102). -/
def LineFront.fell (n : Nat) (l : LineFront) : Bit :=
  l.prev && !l.level n

/-! ## The pins of the current cycle -/

/-- The pin vector of the current cycle: the scheduled one, or, where none is scheduled, whatever the outside world drives. -/
def State.pins (s : State) : Pins :=
  match s.inputs with
  | p :: _ => p
  | [] =>
    { rst := Level.ofBit (Config.freeRst s.cycle)
      d1 := Config.freeLevel s.cycle .d1
      d0 := Config.freeLevel s.cycle .d0
      siteMode := Config.freeLevel s.cycle .siteMode }

/-- The sample of a pin at the edge ending a cycle (R103): its level while stable, a draw while it changes. -/
def sampleLevel (cycle : Nat) (pin : AsyncPin) : Level → Bit
  | .low => false
  | .high => true
  | .changing => Config.sampleDraw cycle pin

/-- `rst` is synchronous to `clk` (R20): it does not change at the edge of the current cycle. -/
def State.rstSynchronous (s : State) : Bool := s.pins.rst != .changing

/-- `rst` in the current cycle. -/
def State.rst (s : State) : Bit := s.pins.rst == .high

/-- The sample of `d0_n` at the edge that ends the current cycle. -/
def State.sample0 (s : State) : Bit := sampleLevel s.cycle .d0 s.pins.d0

/-- The sample of `d1_n` at the edge that ends the current cycle. -/
def State.sample1 (s : State) : Bit := sampleLevel s.cycle .d1 s.pins.d1

/-- `site_mode` as sampled at the edge that ends the current cycle (a draw while it changes, U8). -/
def State.siteMode (s : State) : Bit := sampleLevel s.cycle .siteMode s.pins.siteMode

/-- Puts a pin vector before the scheduled ones: it becomes the current cycle's. -/
def State.present (p : Pins) (s : State) : State := s.setInputs (p :: s.inputs)

/-! ## Reset and the end of a cycle -/

/-- `ResetAll(site_mode)` (R230): every register of R40 at its reset value, the buffer cells unchanged. -/
def resetAll (site : Bit) (s : State) : State :=
  ((((((s.setLines (LineFront.afterReset s.params.syncStages) (LineFront.afterReset s.params.syncStages)).setCount
    0#7).setElapsed 0).setCfgSite site).setOutValid false).setOut Result.zero)

/-- What a cycle does around its operation (R76): with `rst = 0` both front ends shift, reading their start-of-cycle values
from `s`; `t` is the state the operation answered. -/
def endCycle (s t : State) : State :=
  if s.rst then t.tick
  else (t.setLines (s.line0.shift s.params.syncStages s.sample0) (s.line1.shift s.params.syncStages s.sample1)).tick

end Sys2Proof.Machine
end

