-- ==== Sys2Proof/Machine/Flags.lean ====
section
/-! DEFINITION. The one-bit conditions computed from the state each cycle, the two words that select operations, and the
derived lifecycle phase. -/

namespace Sys2Proof.Machine

/-- The frame-end comparator `fe` (R134), from start-of-cycle values. -/
def State.fe (s : State) : Bit :=
  decide (s.count ≠ 0#7) && decide (s.params.quietCycles ≤ s.elapsed)

/-- `e0`: a falling edge of line 0 is detected in this cycle (R102). -/
def State.e0 (s : State) : Bit := s.line0.fell s.params.syncStages

/-- `e1`: a falling edge of line 1 is detected in this cycle (R102). -/
def State.e1 (s : State) : Bit := s.line1.fell s.params.syncStages

/-- The bits a cycle appends: line 0's first (R108). -/
def eventBits (e1 e0 : Bit) : List Bit :=
  (if e0 then [false] else []) ++ (if e1 then [true] else [])

/-- The execute word of the cycle (R72). -/
def State.xw (s : State) : BitVec 4 := executeWord s.rst s.fe s.e1 s.e0

/-- The selector key of the cycle (R74). -/
def State.sk (s : State) : BitVec 8 := selectorKey s.cfgSite s.count

/-- The operation the cycle performs (R73). -/
def State.operation (s : State) : Instr := decode (.execute s.xw)

/-- The decode rule the selector key selects (R75); it matters in a frame-end cycle. -/
def State.decodeRule (s : State) : Instr := decode (.select s.sk)

/-- The lifecycle phases of R30 that exclude one another; `Decoded` is `out_valid = 1` and can hold beside them. -/
inductive Phase where
  | idle
  | capturing
  | quiescing
  deriving DecidableEq, Repr

/-- The phase at the start of a cycle (R30). -/
def State.phase (s : State) : Phase :=
  if s.count = 0#7 then .idle
  else if s.elapsed < s.params.quietCycles then .capturing
  else .quiescing

/-- The phase `Decoded` (R30): the result of the previous cycle's frame is on the outputs. -/
def State.decoded (s : State) : Bool := s.outValid

end Sys2Proof.Machine
end

