-- ==== Sys2Proof/Machine/Capture.lean ====
section
/-! DEFINITION. The operations without frame end: NOP, REC0, REC1, REC01 (spec/40_capture.md). -/

namespace Sys2Proof.Machine

/-- A cycle without reset and frame end: `out_valid` falls, the bits are appended in order, time passes (R76 with `fe = 0`). -/
def captureCycle (bits : List Bit) (s : State) : Answer :=
  configured s (.next (accumulate bits (s.setOutValid false)))

/-- `NOP` (R106). -/
def execNop (s : State) : Answer := captureCycle [] s

/-- `REC0` (R107): line 0 fell. -/
def execRec0 (s : State) : Answer := captureCycle [false] s

/-- `REC1` (R109): line 1 fell. -/
def execRec1 (s : State) : Answer := captureCycle [true] s

/-- `REC01` (R110): both lines fell; line 0's bit is appended first (R108). -/
def execRec01 (s : State) : Answer := captureCycle [false, true] s

end Sys2Proof.Machine
end

