-- ==== Sys2Proof/Machine/Operands.lean ====
section
/-! DEFINITION. How operands are assembled: the field extraction and the byte swap of spec/00_scope.md, and the result record. -/

namespace Sys2Proof.Machine

/-- `Field(lo, hi)` (R11): the half-open range of the buffer accumulated most-significant-first, by the source's own loop. -/
def field (m : Memory) (lo hi : Nat) : Nat :=
  (List.range' lo (hi - lo)).foldl (fun acc i => (acc <<< 1) ||| (m.read i).toNat) 0

/-- `bswap32` (R12): the least significant byte becomes the most significant and so on. -/
def bswap32 (a : BitVec 32) : BitVec 32 :=
  a.extractLsb' 0 8 ++ a.extractLsb' 8 8 ++ a.extractLsb' 16 8 ++ a.extractLsb' 24 8

/-- The result record RR as one 82-bit value (R78): `out_fmt` highest, `out_nbits` lowest. -/
def Result.record (r : Result) : BitVec 82 :=
  r.fmt ++ r.fc ++ r.cc ++ r.uid ++ r.nbits

end Sys2Proof.Machine
end

