-- ==== Sys2Proof/Machine/Decoder.lean ====
section
/-! DEFINITION. The credential decoder: the six decode rules and their dispatch (spec/42_decode.md). -/

namespace Sys2Proof.Machine

/-- A decode rule's action: loads the result registers and nothing else. `len` is how many cells `buf[0 .. len-1]` are the
rule's operands; a buffer shorter than that has no such cell (R50). -/
def loadDecoded (len : Nat) (r : Result) (s : State) : Answer :=
  if len ≤ s.params.maxBits then .next (s.setOut r) else .fault (.noSuchCell s.params.maxBits)

/-- The result of `DEC_W26N` (R162). -/
def resultW26n (m : Memory) : Result :=
  { fmt := 0#3, fc := 0#16, cc := BitVec.ofNat 24 (field m 1 25), uid := 0#32, nbits := 26#7 }

/-- The result of `DEC_W26S` (R163). -/
def resultW26s (m : Memory) : Result :=
  { fmt := 1#3, fc := BitVec.ofNat 16 (field m 1 9), cc := BitVec.ofNat 24 (field m 9 25), uid := 0#32, nbits := 26#7 }

/-- The result of `DEC_W35` (R164). -/
def resultW35 (m : Memory) : Result :=
  { fmt := 2#3, fc := BitVec.ofNat 16 (field m 2 14), cc := BitVec.ofNat 24 (field m 14 34), uid := 0#32, nbits := 35#7 }

/-- The result of `DEC_W37` (R165); index 17 belongs to neither field. -/
def resultW37 (m : Memory) : Result :=
  { fmt := 3#3, fc := BitVec.ofNat 16 (field m 2 17), cc := BitVec.ofNat 24 (field m 18 36), uid := 0#32, nbits := 37#7 }

/-- The result of `DEC_W32` (R166). -/
def resultW32 (m : Memory) : Result :=
  { fmt := 4#3, fc := 0#16, cc := 0#24, uid := bswap32 (BitVec.ofNat 32 (field m 0 32)), nbits := 32#7 }

/-- The result of `DEC_UNK` for a frame of `n` bits (R167); the buffer is not read. -/
def resultUnk (n : Count) : Result :=
  { fmt := 5#3, fc := 0#16, cc := 0#24, uid := 0#32, nbits := n }

/-- `Decode(buf, n, site)` (R160), a pure function (R171). -/
def decodeResult (m : Memory) (n : Count) (site : Bit) : Result :=
  if n = 26#7 ∧ site = false then resultW26n m
  else if n = 26#7 ∧ site = true then resultW26s m
  else if n = 35#7 then resultW35 m
  else if n = 37#7 then resultW37 m
  else if n = 32#7 then resultW32 m
  else resultUnk n

/-- How many cells `buf[0 .. n-1]` are operands of the rule a length selects: all of a known format's, none of an unknown
one's (R162 to R167). -/
def operandCells (n : Count) : Nat :=
  if n = 26#7 ∨ n = 35#7 ∨ n = 37#7 ∨ n = 32#7 then n.toNat else 0

/-- `Decode` of the frame in the buffer, its tuple loaded into the result registers (R136). -/
def decodeFrame (s : State) : Answer :=
  loadDecoded (operandCells s.count) (decodeResult s.buf s.count s.cfgSite) s

/-- `DEC_W26N` (R162). -/
def execDecW26n (s : State) : Answer := configured s (loadDecoded 26 (resultW26n s.buf) s)

/-- `DEC_W26S` (R163). -/
def execDecW26s (s : State) : Answer := configured s (loadDecoded 26 (resultW26s s.buf) s)

/-- `DEC_W35` (R164). -/
def execDecW35 (s : State) : Answer := configured s (loadDecoded 35 (resultW35 s.buf) s)

/-- `DEC_W37` (R165). -/
def execDecW37 (s : State) : Answer := configured s (loadDecoded 37 (resultW37 s.buf) s)

/-- `DEC_W32` (R166). -/
def execDecW32 (s : State) : Answer := configured s (loadDecoded 32 (resultW32 s.buf) s)

/-- `DEC_UNK` (R167). -/
def execDecUnk (s : State) : Answer := configured s (loadDecoded 0 (resultUnk s.count) s)

end Sys2Proof.Machine
end

