-- ==== Sys2Proof/Machine/FrameEnd.lean ====
section
/-! DEFINITION. The operations with frame end: FEND, FEND_REC0, FEND_REC1, FEND_REC01 (spec/41_frame_end.md). -/

namespace Sys2Proof.Machine

/-- The frame clear (R136, R233): the sequence becomes empty and its timer 0; the cells keep their contents (R27). -/
def clearFrame (s : State) : State := (s.setCount 0#7).setElapsed 0

/-- The frame-end action (R136): decode of the start-of-cycle buffer and count, then the clear. -/
def frameEnd (s : State) : Answer := onNext (decodeFrame s) clearFrame

/-- A frame-end cycle (R76 with `fe = 1`): decode and clear, `out_valid` rises, then the cycle's bits start the next frame
(R59). -/
def frameEndCycle (bits : List Bit) (s : State) : Answer :=
  configured s (onNext (frameEnd s) (fun t => accumulate bits (t.setOutValid true)))

/-- `FEND` (R138). -/
def execFend (s : State) : Answer := frameEndCycle [] s

/-- `FEND_REC0` (R139). -/
def execFendRec0 (s : State) : Answer := frameEndCycle [false] s

/-- `FEND_REC1` (R140). -/
def execFendRec1 (s : State) : Answer := frameEndCycle [true] s

/-- `FEND_REC01` (R141): line 0's bit first (R108). -/
def execFendRec01 (s : State) : Answer := frameEndCycle [false, true] s

end Sys2Proof.Machine
end

