-- ==== Sys2Proof/Machine/Reset.lean ====
section
/-! DEFINITION. The operation RESET (spec/70_reset_and_hazards.md). -/

namespace Sys2Proof.Machine

/-- `RESET` (R230), its operand the pin `site_mode` of the cycle (R31). -/
def execReset (s : State) : Answer := configured s (.next (resetAll s.siteMode s))

end Sys2Proof.Machine
end

