-- ==== Sys2Proof/Machine/Dispatch.lean ====
section
/-! DEFINITION. The meaning of each operation, one arm per constructor. -/

namespace Sys2Proof.Machine

/-- What an operation does to the state of a cycle (R73, R75). -/
def exec (i : Instr) (s : State) : Host.Outcome State Fault Refusal :=
  match i with
  -- execute-word operations (R73)
  | .nop => Sys2Proof.Machine.execNop s
  | .rec0 => Sys2Proof.Machine.execRec0 s
  | .rec1 => Sys2Proof.Machine.execRec1 s
  | .rec01 => Sys2Proof.Machine.execRec01 s
  | .fend => Sys2Proof.Machine.execFend s
  | .fendRec0 => Sys2Proof.Machine.execFendRec0 s
  | .fendRec1 => Sys2Proof.Machine.execFendRec1 s
  | .fendRec01 => Sys2Proof.Machine.execFendRec01 s
  | .reset => Sys2Proof.Machine.execReset s
  -- decode rules (R75)
  | .decW26n => Sys2Proof.Machine.execDecW26n s
  | .decW26s => Sys2Proof.Machine.execDecW26s s
  | .decW35 => Sys2Proof.Machine.execDecW35 s
  | .decW37 => Sys2Proof.Machine.execDecW37 s
  | .decW32 => Sys2Proof.Machine.execDecW32 s
  | .decUnk => Sys2Proof.Machine.execDecUnk s

end Sys2Proof.Machine
end

