-- ==== Sys2Proof/Machine/Fetch.lean ====
section
/-! DEFINITION. How a word of the opcode table is placed where the block forms its words. The block fetches nothing (R24): the
execute word of a cycle is made of `rst`, the comparator and the edge detectors, the selector key of `cfg_site` and `count`;
placing a word sets exactly those to what makes it up, where they do not make it up already (log entry 8). -/

namespace Sys2Proof.Machine

/-- Makes the edge detector of a line answer `e` (R102). -/
def LineFront.force (n : Nat) (e : Bit) (l : LineFront) : LineFront :=
  if l.fell n == e then l
  else if e then { stages := l.stages.take (n - 1) ++ [false], prev := true }
  else { stages := l.stages, prev := false }

/-- Gives every cell of the current frame that nothing has written the bit 0: the operand bits of the placed word. -/
def fillFrame (s : State) : State :=
  s.setBuf ((List.range s.count.toNat).foldl (fun m i => if (m.lookup i).isSome then m else m.write i false) s.buf)

/-- Makes the comparator answer `fe` (R134): a complete frame, of one bit if there was none, or no frame. -/
def forceFrameEnd (fe : Bit) (s : State) : State :=
  if s.fe == fe then s
  else if fe then
    (fillFrame (if s.count = 0#7 then s.setCount 1#7 else s)).setElapsed s.params.quietCycles
  else (s.setCount 0#7).setElapsed 0

/-- Makes the pin `rst` of the current cycle carry `b`; where no pin vector is scheduled, the lines idle and `site_mode` keeps
the latched mode. -/
def forceRst (b : Bit) (s : State) : State :=
  match s.inputs with
  | p :: rest => s.setInputs ({ p with rst := Level.ofBit b } :: rest)
  | [] => s.setInputs [{ rst := Level.ofBit b, d1 := .high, d0 := .high, siteMode := Level.ofBit s.cfgSite }]

/-- Makes `w` the execute word of the current cycle. -/
def placeExecute (w : BitVec 4) (s : State) : State :=
  let t := forceFrameEnd (w.getLsbD 2) (forceRst (w.getLsbD 3) s)
  t.setLines (t.line0.force t.params.syncStages (w.getLsbD 0)) (t.line1.force t.params.syncStages (w.getLsbD 1))

/-- Makes `k` the selector key, in a cycle whose execute word is that of a frame end without edges (R74). A key with count 0
is never presented (R75): then no frame ends. -/
def placeSelect (k : BitVec 8) (s : State) : State :=
  placeExecute 0b0100 (fillFrame ((s.setCfgSite (k.getLsbD 7)).setCount (k.extractLsb' 0 7)))

/-- Places a word; where there is none, nothing changes. -/
def placeWord (w : Option OpWord) (s : State) : State :=
  match w with
  | some (.execute xw) => placeExecute xw s
  | some (.select sk) => placeSelect sk s
  | none => s

end Sys2Proof.Machine
end

