-- ==== Sys2Proof/Machine/Step.lean ====
section
/-! DEFINITION. One clock cycle, and the placing of an opcode-table word. -/

namespace Sys2Proof.Machine

/-- One clock cycle (R76): the operation the execute word selects, and around it the shift of the line front ends. A `rst`
that is not synchronous is refused (U9). -/
def step (s : State) : Host.Outcome State Fault Refusal :=
  if s.rstSynchronous then onNext (exec s.operation s) (endCycle s)
  else .refused .rstNotSynchronous

/-- The state in which the next step performs the operation of a table word: an execute word as the cycle's operation, a
selector key as the decode rule of the cycle's frame end. -/
def State.withFetchWord (s : State) (nbits w : Nat) : State :=
  placeWord (tableWord nbits w) s

end Sys2Proof.Machine
end

