-- ==== Sys2Proof/Machine/Conditions.lean ====
section
/-! DEFINITION. The error conditions of spec/60_exceptions.md: none traps and none is recorded beyond the result; these
functions say when each is raised. -/

namespace Sys2Proof.Machine

/-- A condition of R204. -/
inductive Condition where
  /-- A bit of line 0 (`false`) or line 1 (`true`) is dropped because the count its append sees is MAX_BITS (R201). -/
  | bufferOverflow (line : Bit)
  /-- The completed frame's length matches no decode rule (R202). -/
  | unknownFormat
  deriving DecidableEq, Repr

/-- The bits of a cycle that a buffer of `m` cells with `k` of them in use drops, in order. -/
def droppedBits (m k : Nat) : List Bit → List Bit
  | [] => []
  | v :: vs => if k < m then droppedBits m (k + 1) vs else v :: droppedBits m k vs

/-- Whether a frame length matches no decode rule (R202). -/
def unknownLength (n : Count) : Bool :=
  n != 26#7 && n != 32#7 && n != 35#7 && n != 37#7

/-- The BufferOverflow conditions of a cycle that appends `bits` from a count of `k`. -/
def overflows (s : State) (k : Nat) (bits : List Bit) : List Condition :=
  (droppedBits s.params.maxBits k bits).map Condition.bufferOverflow

/-- The UnknownFormat condition of a frame-end cycle. -/
def unknowns (s : State) : List Condition :=
  if unknownLength s.count then [.unknownFormat] else []

/-- The conditions an operation raises in a state, in the order of R205. -/
def conditions (i : Instr) (s : State) : List Condition :=
  match i with
  | .nop => []
  | .rec0 => overflows s s.count.toNat [false]
  | .rec1 => overflows s s.count.toNat [true]
  | .rec01 => overflows s s.count.toNat [false, true]
  | .fend => unknowns s
  | .fendRec0 => unknowns s ++ overflows s 0 [false]
  | .fendRec1 => unknowns s ++ overflows s 0 [true]
  | .fendRec01 => unknowns s ++ overflows s 0 [false, true]
  | .reset => []
  | .decW26n => []
  | .decW26s => []
  | .decW35 => []
  | .decW37 => []
  | .decW32 => []
  | .decUnk => [.unknownFormat]

end Sys2Proof.Machine
end

