-- ==== Sys2Proof/Machine/Script.lean ====
section
/-! DEFINITION. The core level: cycles driven by the input word `{rst, e1, e0}` in place of the pins (R19, R70), and the
stimulus scripts of R82 and R83. -/

namespace Sys2Proof.Machine

/-- The core-level input of one cycle: the input word `IW = {rst, e1, e0}` and the pin `site_mode` (R70). -/
structure CoreInput where
  rst : Bit
  e1 : Bit
  e0 : Bit
  site : Bit
  deriving DecidableEq, Repr

/-- The input word as a value (R70). -/
def CoreInput.iw (c : CoreInput) : BitVec 3 :=
  BitVec.ofBool c.rst ++ BitVec.ofBool c.e1 ++ BitVec.ofBool c.e0

/-- The core-level input the pins and the edge detectors of the current cycle amount to (R19). -/
def State.coreInput (s : State) : CoreInput :=
  { rst := s.rst, e1 := s.e1, e0 := s.e0, site := s.siteMode }

/-- The pins that carry a core-level input's `rst` and `site_mode`, the lines idle. -/
def CoreInput.pins (c : CoreInput) : Pins :=
  { rst := Level.ofBit c.rst, d1 := .high, d0 := .high, siteMode := Level.ofBit c.site }

/-- One core-level cycle: the event bits are the input's, not the edge detectors'; the line front ends are not stepped. -/
def coreCycle (c : CoreInput) (s : State) : Answer :=
  onNext (exec (decode (.execute (executeWord c.rst s.fe c.e1 c.e0))) (s.present c.pins)) State.tick

/-- Core-level cycles in order, stopping at the first stop. -/
def runCore : List CoreInput → State → Answer
  | [], s => .next s
  | c :: cs, s =>
    match coreCycle c s with
    | .next t => runCore cs t
    | .fault r => .fault r
    | .refused r => .refused r

/-- A base statement of the stimulus notation (R82). -/
inductive Stmt where
  | nop
  | b0
  | b1
  | b01
  | rst (site : Bit)
  deriving DecidableEq, Repr

/-- The input a base statement gives its cycle (R82). Outside reset `site_mode` is a don't care; 0 stands for it. -/
def Stmt.input : Stmt → CoreInput
  | .nop => { rst := false, e1 := false, e0 := false, site := false }
  | .b0 => { rst := false, e1 := false, e0 := true, site := false }
  | .b1 => { rst := false, e1 := true, e0 := false, site := false }
  | .b01 => { rst := false, e1 := true, e0 := true, site := false }
  | .rst site => { rst := true, e1 := false, e0 := false, site := site }

/-- A stimulus script with the pseudo-statements of R83, as a sequence: each form is followed by the rest of the script. -/
inductive Script where
  | done
  | base (b : Stmt) (rest : Script)
  | nops (n : Nat) (rest : Script)
  | bits (bs : List Bit) (gap : Nat) (rest : Script)
  | waitq (rest : Script)
  | rep (n : Nat) (body rest : Script)
  deriving DecidableEq, Repr

/-- The statement that gives a bit (R83). -/
def Stmt.ofBit (b : Bit) : Stmt := if b then .b1 else .b0

/-- The base statements a script expands to, for a quiet interval of `q` cycles (R83). -/
def Script.expand (q : Nat) : Script → List Stmt
  | .done => []
  | .base b rest => b :: rest.expand q
  | .nops n rest => List.replicate n .nop ++ rest.expand q
  | .bits bs gap rest => bs.flatMap (fun b => Stmt.ofBit b :: List.replicate gap .nop) ++ rest.expand q
  | .waitq rest => List.replicate q .nop ++ rest.expand q
  | .rep n body rest => (List.replicate n (body.expand q)).flatten ++ rest.expand q

/-- Runs a script on a state, at the core level. -/
def Script.run (sc : Script) (s : State) : Answer :=
  runCore ((sc.expand s.params.quietCycles).map Stmt.input) s

end Sys2Proof.Machine
end

