-- ==== Sys2Proof/Safety.lean ====
section
/-! DEFINITION. What holds of every state of a run: the invariants of R41, the ranges the result registers have, and what it
means that two states agree on the core registers. -/

namespace Sys2Proof.Machine

/-- The invariants at the start of every cycle after the first reset: R41 (a) to (e), the written cells of R63, and what the
model's plain data has beside them (legal parameters, chains of SYNC_STAGES stages, the buffer's canonical form). -/
structure State.Inv (s : State) : Prop where
  params_legal : s.params.Legal
  chain0 : s.line0.stages.length = s.params.syncStages
  chain1 : s.line1.stages.length = s.params.syncStages
  buf_wf : Memory.wf s.buf
  buf_range : ∀ i b, (i, b) ∈ s.buf → i < s.params.maxBits
  count_le : s.count.toNat ≤ s.params.maxBits
  elapsed_le : s.elapsed ≤ s.params.quietCycles
  elapsed_idle : s.count = 0#7 → s.elapsed = 0
  elapsed_busy : s.count ≠ 0#7 → 1 ≤ s.elapsed
  fmt_le : s.out.fmt.toNat ≤ 5
  written : ∀ i, i < s.count.toNat → (s.buf.lookup i).isSome

/-- The result registers hold what some decode rule can give, or their reset values (R21, R77, R168): a tag of at most 5, a
facility code of at most 15 bits, a length within the buffer, and 0 in the fields the tag's variant does not carry. -/
structure State.ResultInv (s : State) : Prop where
  fmt_le : s.out.fmt.toNat ≤ 5
  fc_lt : s.out.fc.toNat < 2 ^ 15
  nbits_le : s.out.nbits.toNat ≤ s.params.maxBits
  uid_zero : s.out.fmt ≠ 4#3 → s.out.uid = 0#32
  fc_zero : s.out.fmt = 0#3 ∨ s.out.fmt = 4#3 ∨ s.out.fmt = 5#3 → s.out.fc = 0#16
  cc_zero : s.out.fmt = 4#3 ∨ s.out.fmt = 5#3 → s.out.cc = 0#24

/-- Two states whose core registers agree: everything but the line front ends and the model's input fields. -/
structure State.CoreAgrees (s t : State) : Prop where
  params : s.params = t.params
  buf : s.buf = t.buf
  count : s.count = t.count
  elapsed : s.elapsed = t.elapsed
  cfgSite : s.cfgSite = t.cfgSite
  outValid : s.outValid = t.outValid
  out : s.out = t.out

end Sys2Proof.Machine
end

