-- ==== Sys2Proof/Certificates/Slice0/Obligations.lean ====
section
/-! DEFINITION. The statements for the provers, file by file of spec/. -/

open Sys2Proof Sys2Proof.Machine

/-! ## Encodings (30_encoding.md) -/

/-- R73: every execute word belongs to exactly one row of the map, the one whose operation the decoder gives. -/
def Obligations.ExecuteWordSelectsOneRow : Prop :=
  ∀ xw : BitVec 4, (executeRows.filter (fun r => r.covers xw)).map Row.instr = [decode (.execute xw)]

/-- 30_encoding.md section 2: the decoder gives the first row that matches a selector key, and at most one of the five rows
before the last matches. -/
def Obligations.SelectorKeySelectsFirstRow : Prop :=
  ∀ sk : BitVec 8,
    firstMatch selectorRows sk = some (decode (.select sk)) ∧
    ((selectorRows.take 5).filter (fun r => r.covers sk)).length ≤ 1

/-- Decoding an encoded well-formed operation gives it back. -/
def Obligations.DecodeOfEncode : Prop :=
  ∀ i : Instr, i.wellFormed = true → decode (encode i) = i

/-- Words written out from the maps of R73 and R75 decode to the operations they stand for. -/
def Obligations.TableWordsDecode : Prop :=
  decode (.execute 0b0000) = .nop ∧ decode (.execute 0b0001) = .rec0 ∧ decode (.execute 0b0010) = .rec1 ∧
  decode (.execute 0b0011) = .rec01 ∧ decode (.execute 0b0100) = .fend ∧ decode (.execute 0b0101) = .fendRec0 ∧
  decode (.execute 0b0110) = .fendRec1 ∧ decode (.execute 0b0111) = .fendRec01 ∧ decode (.execute 0b1101) = .reset ∧
  decode (.select 0b00011010) = .decW26n ∧ decode (.select 0b10011010) = .decW26s ∧
  decode (.select 0b10100011) = .decW35 ∧ decode (.select 0b00100101) = .decW37 ∧
  decode (.select 0b10100000) = .decW32 ∧ decode (.select 0b00011011) = .decUnk

/-- An execute word placed with `withFetchWord` is the cycle's execute word, and the step performs its operation. The placing
is the model's choice (log entry 8). -/
def Obligations.PlacedExecuteWordIsPerformed : Prop :=
  ∀ (s : State) (w : Nat), w < 16 → s.params.Legal →
    s.line0.stages.length = s.params.syncStages → s.line1.stages.length = s.params.syncStages →
    (s.withFetchWord 8 w).xw = BitVec.ofNat 4 w ∧
    step (s.withFetchWord 8 w) =
      onNext (exec (decode (.execute (BitVec.ofNat 4 w))) (s.withFetchWord 8 w)) (endCycle (s.withFetchWord 8 w))

/-- A selector key placed with `withFetchWord`, with a count other than 0, selects the decode rule of the frame-end cycle that
the step performs. The placing is the model's choice (log entry 8). -/
def Obligations.PlacedKeySelectsItsRule : Prop :=
  ∀ (s : State) (w : Nat), 16 ≤ w → w < 256 → w % 128 ≠ 0 → s.params.Legal →
    s.line0.stages.length = s.params.syncStages → s.line1.stages.length = s.params.syncStages →
    (s.withFetchWord 8 w).decodeRule = decode (.select (BitVec.ofNat 8 w)) ∧
    step (s.withFetchWord 8 w) = onNext (exec .fend (s.withFetchWord 8 w)) (endCycle (s.withFetchWord 8 w))

/-- 30_encoding.md sections 1 and 3: a step with a synchronous `rst` is the operation of the execute word
`{rst, fe, e1, e0}`, and around it the end of the cycle. -/
def Obligations.StepRunsTheSelectedOperation : Prop :=
  ∀ s : State, s.pins.rst ≠ .changing →
    step s = onNext (exec (decode (.execute (executeWord s.rst s.fe s.e1 s.e0))) s) (endCycle s)

/-- 93_implementation_defined.md U9: a `rst` that violates the setup-and-hold window is refused. -/
def Obligations.UnsynchronousResetIsRefused : Prop :=
  ∀ s : State, s.pins.rst = .changing → step s = .refused .rstNotSynchronous

/-- R78: the packing of the result record for CNT_W = 7. -/
def Obligations.ResultRecordPacking : Prop :=
  ∀ r : Result,
    r.record.extractLsb' 0 7 = r.nbits ∧ r.record.extractLsb' 7 32 = r.uid ∧ r.record.extractLsb' 39 24 = r.cc ∧
    r.record.extractLsb' 63 16 = r.fc ∧ r.record.extractLsb' 79 3 = r.fmt

/-! ## Parameters and primitives (00_scope.md) -/

/-- R7: with a parameter outside its legal range no operation has a meaning; a buffer too short for some formats is legal. -/
def Obligations.IllegalParametersAreRefused : Prop :=
  (∀ (i : Instr) (s : State), ¬ s.params.Legal → exec i s = .refused .illegalParameters) ∧
  (∀ p : Params, p.quietCycles = 0 ∨ p.maxBits = 0 → ¬ p.Legal) ∧
  (∀ p : Params, 1 ≤ p.maxBits → p.maxBits < 37 → 1 ≤ p.quietCycles → p.quietCycles ≤ 2 ^ 32 - 1 →
    2 ≤ p.syncStages → p.syncStages ≤ 4 → p.Legal)

/-- R11: a field is the sum of its cells, each weighted by its distance from the last one; the first cell is the most
significant bit. -/
def Obligations.FieldIsMostSignificantFirst : Prop :=
  ∀ (m : Memory) (lo hi : Nat), lo ≤ hi →
    field m lo hi = ∑ i ∈ Finset.Ico lo hi, (m.read i).toNat * 2 ^ (hi - 1 - i) ∧
    (lo < hi → (field m lo hi).testBit (hi - lo - 1) = m.read lo ∧ (field m lo hi).testBit 0 = m.read (hi - 1))

/-- R12: the byte swap, byte by byte; the spec marks this definition as general knowledge (K1). -/
def Obligations.ByteSwapReversesBytes : Prop :=
  ∀ a : BitVec 32,
    (bswap32 a).extractLsb' 24 8 = a.extractLsb' 0 8 ∧ (bswap32 a).extractLsb' 16 8 = a.extractLsb' 8 8 ∧
    (bswap32 a).extractLsb' 8 8 = a.extractLsb' 16 8 ∧ (bswap32 a).extractLsb' 0 8 = a.extractLsb' 24 8

/-- No operation and no step changes the instance's parameters. That the parameters are data of the state is the model's
choice (log entry 1). -/
def Obligations.ParametersNeverChange : Prop :=
  (∀ (i : Instr) (s t : State), exec i s = .next t → t.params = s.params) ∧
  (∀ s t : State, step s = .next t → t.params = s.params)

/-! ## Registers, reset and invariants (10_state.md, 70_reset_and_hazards.md) -/

/-- R40: the reset value of every piece of state, at the end of any cycle with `rst = 1`. -/
def Obligations.ResetCycleResetsEverything : Prop :=
  ∀ s : State, s.params.Legal → s.pins.rst = .high →
    ∃ t, step s = .next t ∧
      t.line0.stages = List.replicate s.params.syncStages true ∧ t.line1.stages = List.replicate s.params.syncStages true ∧
      t.line0.prev = true ∧ t.line1.prev = true ∧ t.buf = s.buf ∧ t.count = 0#7 ∧ t.elapsed = 0 ∧
      t.cfgSite = s.siteMode ∧ t.outValid = false ∧ t.out.fmt = 0#3 ∧ t.out.fc = 0#16 ∧ t.out.cc = 0#24 ∧
      t.out.uid = 0#32 ∧ t.out.nbits = 0#7

/-- 70_reset_and_hazards.md section 1: RESET completes on every legal instance, whatever the events and the comparator. -/
def Obligations.ResetCompletes : Prop :=
  ∀ s : State, s.params.Legal →
    exec .reset s = .next { s with
      line0 := { stages := List.replicate s.params.syncStages true, prev := true }
      line1 := { stages := List.replicate s.params.syncStages true, prev := true }
      count := 0#7, elapsed := 0, cfgSite := s.siteMode, outValid := false
      out := { fmt := 0#3, fc := 0#16, cc := 0#24, uid := 0#32, nbits := 0#7 } }

/-- 70_reset_and_hazards.md section 1: from power-up, one cycle with `rst = 1` is a complete reset, whatever the registers
held (the model's input fields aside). -/
def Obligations.PowerUpThenReset : Prop :=
  ∀ (p : Params) (ps : Pins), p.Legal → ps.rst = .high →
    ∃ t, step ((State.powerUp p).present ps) = .next t ∧
      { t with inputs := [], cycle := 0 } = State.resetFor p ((State.powerUp p).present ps).siteMode

/-- R31: `cfg_site` takes `site_mode` in every cycle with `rst = 1` and holds in every cycle with `rst = 0`, and no operation
but RESET writes it. -/
def Obligations.SiteModeLatchedInResetOnly : Prop :=
  (∀ s : State, s.params.Legal → s.pins.rst = .high → ∃ t, step s = .next t ∧ t.cfgSite = s.siteMode) ∧
  (∀ s t : State, s.pins.rst = .low → step s = .next t → t.cfgSite = s.cfgSite) ∧
  (∀ (i : Instr) (s t : State), i ≠ .reset → exec i s = .next t → t.cfgSite = s.cfgSite) ∧
  (∀ (p : Params) (site : Bit), (State.resetFor p site).cfgSite = site)

/-- The invariants hold at reset, for every legal instance and either mode, and at State.reset; the phase there is Idle and not
Decoded (10_state.md section 3 derives it). -/
def Obligations.ResetMeetsInvariants : Prop :=
  (∀ (p : Params) (site : Bit), p.Legal → (State.resetFor p site).Inv ∧ (State.resetFor p site).ResultInv ∧
    (State.resetFor p site).phase = .idle ∧ (State.resetFor p site).decoded = false) ∧
  State.reset.Inv

/-- 10_state.md section 3: every step keeps the invariants. -/
def Obligations.EveryStepKeepsInvariants : Prop :=
  ∀ s t : State, s.Inv → step s = .next t → t.Inv

/-- 10_state.md section 2, 30_encoding.md section 4: every step keeps the result registers within what the decoder can
give. -/
def Obligations.EveryStepKeepsResultRanges : Prop :=
  ∀ s t : State, s.Inv → s.ResultInv → step s = .next t → t.ResultInv

/-- 60_exceptions.md section 1: nothing in the core is fatal. From every state that meets the invariants a step with a
synchronous `rst` answers a next state. -/
def Obligations.NothingIsFatal : Prop :=
  ∀ s : State, s.Inv → s.pins.rst ≠ .changing → ∃ t, step s = .next t

/-! ## Line front ends (40_capture.md section 1) -/

/-- R100, R101: in every cycle with `rst = 0` each chain takes the pin's sample and moves on by one stage, and the previous
level takes the synchronised level. -/
def Obligations.SynchroniserShifts : Prop :=
  ∀ s : State, s.Inv → s.pins.rst = .low →
    ∃ t, step s = .next t ∧
      t.line0.stages[0]? = some s.sample0 ∧ t.line1.stages[0]? = some s.sample1 ∧
      (∀ j, 1 ≤ j → j < s.params.syncStages →
        t.line0.stages[j]? = s.line0.stages[j - 1]? ∧ t.line1.stages[j]? = s.line1.stages[j - 1]?) ∧
      some t.line0.prev = s.line0.stages[s.params.syncStages - 1]? ∧
      some t.line1.prev = s.line1.stages[s.params.syncStages - 1]?

/-- 40_capture.md section 1: the event bit is the 1-to-0 transition of the sample sequence, SYNC_STAGES cycles later: after
samples that end in `u`, `v` and `SYNC_STAGES - 1` further ones, the detector answers 1 exactly if `u` is 1 and `v` is 0. -/
def Obligations.EventIsDelayedSampleTransition : Prop :=
  ∀ (n : Nat) (l : LineFront) (before after : List Bit) (u v : Bit),
    1 ≤ n → l.stages.length = n → after.length + 1 = n →
    (l.feed n (before ++ [u, v] ++ after)).fell n = (u && !v)

/-- 70_reset_and_hazards.md section 3: a line that stays low from reset release on gives one event, after exactly SYNC_STAGES
low samples, and no other. -/
def Obligations.LowLineAtReleaseGivesOneEvent : Prop :=
  ∀ n k : Nat, 1 ≤ n →
    ((LineFront.afterReset n).feed n (List.replicate k false)).fell n = decide (k = n)

/-! ## Appending and the operations without frame end (40_capture.md sections 2 and 3) -/

/-- R104: an append below capacity writes its bit at index `count` and raises the count by one; at capacity it does nothing. -/
def Obligations.AppendStoresOrDrops : Prop :=
  ∀ (v : Bit) (s : State),
    (s.count.toNat < s.params.maxBits →
      appendBit v s = ({ s with buf := s.buf.write s.count.toNat v, count := s.count + 1#7 }, true)) ∧
    (s.params.maxBits ≤ s.count.toNat → appendBit v s = (s, false))

/-- R106: the execute word 0000 is NOP. It completes on every legal instance and raises no condition; only `out_valid` and the
timer change. -/
def Obligations.NopCompletes : Prop :=
  decode (.execute 0b0000) = .nop ∧
  ∀ s : State, s.params.Legal →
    conditions .nop s = [] ∧
    exec .nop s = .next { s with
      outValid := false
      elapsed := if s.count = 0#7 then 0 else min (s.elapsed + 1) s.params.quietCycles }

/-- 40_capture.md section 3: REC0 and REC1 complete on every legal instance: the bit is stored at index `count`, or, in a full
buffer, dropped with the effect of NOP. -/
def Obligations.RecordOneBitCompletes : Prop :=
  ∀ s : State, s.params.Legal →
    (s.count.toNat < s.params.maxBits →
      exec .rec0 s = .next { s with
        buf := s.buf.write s.count.toNat false, count := s.count + 1#7, elapsed := 1, outValid := false } ∧
      exec .rec1 s = .next { s with
        buf := s.buf.write s.count.toNat true, count := s.count + 1#7, elapsed := 1, outValid := false }) ∧
    (s.params.maxBits ≤ s.count.toNat →
      exec .rec0 s = .next { s with elapsed := min (s.elapsed + 1) s.params.quietCycles, outValid := false } ∧
      exec .rec1 s = .next { s with elapsed := min (s.elapsed + 1) s.params.quietCycles, outValid := false })

/-- R110: the execute word 0011 is REC01. It completes on every legal instance: bit 0 then bit 1, the second or both dropped
where there is no room, with BufferOverflow for each dropped bit. -/
def Obligations.RecordBothBitsCompletes : Prop :=
  decode (.execute 0b0011) = .rec01 ∧
  ∀ s : State, s.params.Legal →
    (s.count.toNat + 1 < s.params.maxBits →
      conditions .rec01 s = [] ∧
      exec .rec01 s = .next { s with
        buf := (s.buf.write s.count.toNat false).write (s.count.toNat + 1) true
        count := s.count + 2#7, elapsed := 1, outValid := false }) ∧
    (s.count.toNat + 1 = s.params.maxBits →
      conditions .rec01 s = [.bufferOverflow true] ∧
      exec .rec01 s = .next { s with
        buf := s.buf.write s.count.toNat false, count := s.count + 1#7, elapsed := 1, outValid := false }) ∧
    (s.params.maxBits ≤ s.count.toNat →
      conditions .rec01 s = [.bufferOverflow false, .bufferOverflow true] ∧
      exec .rec01 s = .next { s with elapsed := min (s.elapsed + 1) s.params.quietCycles, outValid := false })

/-- The frame of NOP, REC0, REC1 and REC01: parameters, line front ends, mode, result registers and inputs hold, `out_valid`
falls, and every cell but those appended at index `count` on reads as before; NOP stores nothing. -/
def Obligations.CaptureFrame : Prop :=
  ∀ (i : Instr) (s t : State), i = .nop ∨ i = .rec0 ∨ i = .rec1 ∨ i = .rec01 → exec i s = .next t →
    t.params = s.params ∧ t.line0 = s.line0 ∧ t.line1 = s.line1 ∧ t.cfgSite = s.cfgSite ∧ t.out = s.out ∧
    t.inputs = s.inputs ∧ t.cycle = s.cycle ∧ t.outValid = false ∧
    (i = .nop → t.count = s.count ∧ ∀ a, t.buf.read a = s.buf.read a) ∧
    (i = .rec0 ∨ i = .rec1 → ∀ a, a ≠ s.count.toNat → t.buf.read a = s.buf.read a) ∧
    (i = .rec01 → ∀ a, a ≠ s.count.toNat → a ≠ s.count.toNat + 1 → t.buf.read a = s.buf.read a) ∧
    (s.params.maxBits ≤ s.count.toNat → t.count = s.count ∧ ∀ a, t.buf.read a = s.buf.read a)

/-! ## The comparator and the operations with frame end (41_frame_end.md) -/

/-- R131: the elapsed update in every cycle with `rst = 0`: 1 if a bit was stored, 0 if the frame is then empty, else one more,
saturating at QUIET_CYCLES. -/
def Obligations.ElapsedUpdate : Prop :=
  ∀ s : State, s.Inv → s.pins.rst = .low →
    ∃ t, step s = .next t ∧
      t.elapsed =
        if (s.e0 = true ∨ s.e1 = true) ∧ (s.fe = true ∨ s.count.toNat < s.params.maxBits) then 1
        else if t.count = 0#7 then 0
        else min (s.elapsed + 1) s.params.quietCycles

/-- R134: the frame-end comparator; with `rst = 1` it has no effect, whatever it answers. -/
def Obligations.FrameEndComparator : Prop :=
  (∀ s : State, s.fe = true ↔ s.count ≠ 0#7 ∧ s.params.quietCycles ≤ s.elapsed) ∧
  (∀ fe e1 e0 : Bit, decode (.execute (executeWord true fe e1 e0)) = .reset)

/-- R135: an empty frame is never complete, whatever `elapsed` holds and however long the silence lasts. -/
def Obligations.EmptyFrameNeverComplete : Prop :=
  ∀ (s : State) (n : Nat), s.params.Legal → s.count = 0#7 →
    s.fe = false ∧
    ∃ t, runCore (List.replicate n Stmt.nop.input) s = .next t ∧ t.count = 0#7 ∧ t.fe = false

/-- R137: in every cycle with `rst = 0`, `out_valid` takes `fe`; the result registers take the decoded frame if `fe` is 1 and
hold otherwise. -/
def Obligations.OutValidFollowsFrameEnd : Prop :=
  ∀ s : State, s.Inv → s.pins.rst = .low →
    ∃ t, step s = .next t ∧ t.outValid = s.fe ∧
      (s.fe = true → t.out = decodeResult s.buf s.count s.cfgSite) ∧ (s.fe = false → t.out = s.out)

/-- R138: the execute word 0100 is FEND. It completes on every legal instance with a frame inside the buffer: decode, pulse,
clear; cells unchanged. A frame whose length is none of the four known ones decodes as Unknown with its length: a 1-bit
frame, the 40-bit frame of the rule's example, a full buffer of 100 bits. -/
def Obligations.FrameEndCompletes : Prop :=
  decode (.execute 0b0100) = .fend ∧
  (∀ s : State, s.params.Legal → s.count.toNat ≤ s.params.maxBits →
    exec .fend s = .next { s with
      out := decodeResult s.buf s.count s.cfgSite, outValid := true, count := 0#7, elapsed := 0 }) ∧
  (∀ (m : Memory) (site : Bit) (n : Count), n ≠ 26#7 → n ≠ 32#7 → n ≠ 35#7 → n ≠ 37#7 →
    decodeResult m n site = { fmt := 5#3, fc := 0#16, cc := 0#24, uid := 0#32, nbits := n })

/-- R139, R140: the execute words 0101 and 0110 are FEND_REC0 and FEND_REC1. They complete on every legal instance with a
frame inside the buffer: the old frame is decoded from the start-of-cycle buffer, the new bit is cell 0 of the next
frame and is never dropped. -/
def Obligations.FrameEndWithOneBitCompletes : Prop :=
  decode (.execute 0b0101) = .fendRec0 ∧ decode (.execute 0b0110) = .fendRec1 ∧
  ∀ s : State, s.params.Legal → s.count.toNat ≤ s.params.maxBits →
    exec .fendRec0 s = .next { s with
      out := decodeResult s.buf s.count s.cfgSite, outValid := true
      buf := s.buf.write 0 false, count := 1#7, elapsed := 1 } ∧
    exec .fendRec1 s = .next { s with
      out := decodeResult s.buf s.count s.cfgSite, outValid := true
      buf := s.buf.write 0 true, count := 1#7, elapsed := 1 }

/-- R141: the execute word 0111 is FEND_REC01. It completes on every legal instance with a frame inside the buffer: both bits
start the next frame, line 0's first; the second is dropped, with BufferOverflow, only if MAX_BITS is 1. -/
def Obligations.FrameEndWithBothBitsCompletes : Prop :=
  decode (.execute 0b0111) = .fendRec01 ∧
  ∀ s : State, s.params.Legal → s.count.toNat ≤ s.params.maxBits →
    (1 < s.params.maxBits →
      (∀ line, Condition.bufferOverflow line ∉ conditions .fendRec01 s) ∧
      exec .fendRec01 s = .next { s with
        out := decodeResult s.buf s.count s.cfgSite, outValid := true
        buf := (s.buf.write 0 false).write 1 true, count := 2#7, elapsed := 1 }) ∧
    (s.params.maxBits = 1 →
      (∀ line, Condition.bufferOverflow line ∈ conditions .fendRec01 s ↔ line = true) ∧
      exec .fendRec01 s = .next { s with
        out := decodeResult s.buf s.count s.cfgSite, outValid := true
        buf := s.buf.write 0 false, count := 1#7, elapsed := 1 })

/-- The frame of FEND, FEND_REC0, FEND_REC1 and FEND_REC01: parameters, line front ends, mode and inputs hold, and every cell
but those appended from index 0 on reads as before; FEND stores nothing. -/
def Obligations.FrameEndFrame : Prop :=
  ∀ (i : Instr) (s t : State), i = .fend ∨ i = .fendRec0 ∨ i = .fendRec1 ∨ i = .fendRec01 → exec i s = .next t →
    t.params = s.params ∧ t.line0 = s.line0 ∧ t.line1 = s.line1 ∧ t.cfgSite = s.cfgSite ∧
    t.inputs = s.inputs ∧ t.cycle = s.cycle ∧ t.outValid = true ∧
    (i = .fend → ∀ a, t.buf.read a = s.buf.read a) ∧
    (i = .fendRec0 ∨ i = .fendRec1 → ∀ a, a ≠ 0 → t.buf.read a = s.buf.read a) ∧
    (i = .fendRec01 → ∀ a, a ≠ 0 → a ≠ 1 → t.buf.read a = s.buf.read a)

/-- 30_encoding.md section 3: in a cycle with `rst = 0` the count and the buffer take the cycle's bits after the clear, line
0's first; every other cell keeps its content. -/
def Obligations.StepAppendsEventsInOrder : Prop :=
  ∀ s : State, s.Inv → s.pins.rst = .low →
    ∃ t, step s = .next t ∧
      let base := if s.fe then 0 else s.count.toNat
      let bits := eventBits s.e1 s.e0
      t.count.toNat = min (base + bits.length) s.params.maxBits ∧
      (∀ k, k < bits.length → base + k < s.params.maxBits → t.buf.lookup (base + k) = bits[k]?) ∧
      (∀ a, a < base ∨ base + bits.length ≤ a ∨ s.params.maxBits ≤ a → t.buf.lookup a = s.buf.lookup a)

/-- 41_frame_end.md section 4 derives it: the frame-end latency. `elapsed = 1` says that the last bit was stored in the
cycle before (cycle `t`); after `n` further cycles without an edge the frame is open until `n = QUIET_CYCLES - 1`, whose
cycle ends it; a bit `g` cycles after the last one joins the frame exactly if `g < QUIET_CYCLES`. -/
def Obligations.FrameEndLatency : Prop :=
  ∀ s : State, s.params.Legal → s.count ≠ 0#7 → s.count.toNat ≤ s.params.maxBits → s.elapsed = 1 →
    (∀ n, n < s.params.quietCycles →
      ∃ t, runCore (List.replicate n Stmt.nop.input) s = .next t ∧ t.count = s.count ∧ t.buf = s.buf ∧
        t.elapsed = n + 1 ∧ t.out = s.out ∧ (t.fe = true ↔ n + 1 = s.params.quietCycles)) ∧
    (∃ t, runCore (List.replicate s.params.quietCycles Stmt.nop.input) s = .next t ∧ t.outValid = true ∧
      t.out = decodeResult s.buf s.count s.cfgSite ∧ t.count = 0#7) ∧
    (∀ (b : Bit) (g : Nat), 1 ≤ g → g < s.params.quietCycles → s.count.toNat < s.params.maxBits →
      ∃ t, runCore (List.replicate (g - 1) Stmt.nop.input ++ [(Stmt.ofBit b).input]) s = .next t ∧
        t.count = s.count + 1#7 ∧ t.buf.lookup s.count.toNat = some b ∧ t.outValid = false) ∧
    (∀ (b : Bit) (g : Nat), s.params.quietCycles ≤ g →
      ∃ t, runCore (List.replicate (g - 1) Stmt.nop.input ++ [(Stmt.ofBit b).input]) s = .next t ∧
        t.count = 1#7 ∧ t.buf.lookup 0 = some b ∧ t.out = decodeResult s.buf s.count s.cfgSite ∧
        (t.outValid = true ↔ g = s.params.quietCycles))

/-- 41_frame_end.md section 4: the lifecycle transitions in a cycle with `rst = 0`. With QUIET_CYCLES = 1 a stored bit
completes the frame at once: there the phase after an append is Quiescing by R30's own condition, where the table of
R142 says Capturing (log entry 9). -/
def Obligations.LifecycleTransitions : Prop :=
  ∀ s : State, s.Inv → s.pins.rst = .low →
    ∃ t, step s = .next t ∧
      t.decoded = decide (s.phase = .quiescing) ∧
      t.phase =
        if (s.e0 = true ∨ s.e1 = true) ∧ (s.phase = .quiescing ∨ s.count.toNat < s.params.maxBits) then
          (if 1 < s.params.quietCycles then .capturing else .quiescing)
        else if s.phase = .capturing then
          (if s.elapsed + 1 < s.params.quietCycles then .capturing else .quiescing)
        else .idle

/-! ## The decode rules (42_decode.md) -/

/-- R162: the selector key 0x1A is DEC_W26N. It completes on every legal instance with 26 cells and gives the 24 card-code
bits 1 to 24; nothing else changes. -/
def Obligations.DecodeW26nCompletes : Prop :=
  decode (.select 0x1A) = .decW26n ∧
  ∀ s : State, s.params.Legal → 26 ≤ s.params.maxBits →
    ∃ r, exec .decW26n s = .next { s with out := r } ∧ r.fmt = 0#3 ∧ r.fc = 0#16 ∧ r.uid = 0#32 ∧ r.nbits = 26#7 ∧
      ∀ j, j < 24 → r.cc.getLsbD j = s.buf.read (24 - j)

/-- R163: the selector key 0x9A is DEC_W26S. It completes on every legal instance with 26 cells: facility code from cells 1
to 8, card code from cells 9 to 24; the two ranges are adjacent and disjoint. -/
def Obligations.DecodeW26sCompletes : Prop :=
  decode (.select 0x9A) = .decW26s ∧
  ∀ s : State, s.params.Legal → 26 ≤ s.params.maxBits →
    ∃ r, exec .decW26s s = .next { s with out := r } ∧ r.fmt = 1#3 ∧ r.uid = 0#32 ∧ r.nbits = 26#7 ∧
      r.fc.toNat < 2 ^ 8 ∧ r.cc.toNat < 2 ^ 16 ∧
      (∀ j, j < 8 → r.fc.getLsbD j = s.buf.read (8 - j)) ∧
      (∀ j, j < 16 → r.cc.getLsbD j = s.buf.read (24 - j))

/-- 42_decode.md section 2 derives it: the two codes of a 26-bit frame with site code, joined, are the card code the same bits
have without it. -/
def Obligations.SiteCodesJoinToCardCode : Prop :=
  ∀ m : Memory,
    (decodeResult m 26#7 true).fc.extractLsb' 0 8 ++ (decodeResult m 26#7 true).cc.extractLsb' 0 16 =
      (decodeResult m 26#7 false).cc

/-- R164: a selector key whose lower 7 bits are 0x23 is DEC_W35. It completes on every legal instance with 35 cells:
facility code from cells 2 to 13, card code from cells 14 to 33. -/
def Obligations.DecodeW35Completes : Prop :=
  (∀ sk : BitVec 8, sk &&& 0x7F = 0x23 → decode (.select sk) = .decW35) ∧
  ∀ s : State, s.params.Legal → 35 ≤ s.params.maxBits →
    ∃ r, exec .decW35 s = .next { s with out := r } ∧ r.fmt = 2#3 ∧ r.uid = 0#32 ∧ r.nbits = 35#7 ∧
      r.fc.toNat < 2 ^ 12 ∧ r.cc.toNat < 2 ^ 20 ∧
      (∀ j, j < 12 → r.fc.getLsbD j = s.buf.read (13 - j)) ∧
      (∀ j, j < 20 → r.cc.getLsbD j = s.buf.read (33 - j))

/-- R165: a selector key whose lower 7 bits are 0x25 is DEC_W37. It completes on every legal instance with 37 cells:
facility code from cells 2 to 16, card code from cells 18 to 35; cell 17 is in neither. -/
def Obligations.DecodeW37Completes : Prop :=
  (∀ sk : BitVec 8, sk &&& 0x7F = 0x25 → decode (.select sk) = .decW37) ∧
  ∀ s : State, s.params.Legal → 37 ≤ s.params.maxBits →
    ∃ r, exec .decW37 s = .next { s with out := r } ∧ r.fmt = 3#3 ∧ r.uid = 0#32 ∧ r.nbits = 37#7 ∧
      r.fc.toNat < 2 ^ 15 ∧ r.cc.toNat < 2 ^ 18 ∧
      (∀ j, j < 15 → r.fc.getLsbD j = s.buf.read (16 - j)) ∧
      (∀ j, j < 18 → r.cc.getLsbD j = s.buf.read (35 - j))

/-- R166: a selector key whose lower 7 bits are 0x20 is DEC_W32. It completes on every legal instance with 32 cells: byte
`b` of the UID is the `b`-th byte received, its first bit the most significant of that byte. -/
def Obligations.DecodeW32Completes : Prop :=
  (∀ sk : BitVec 8, sk &&& 0x7F = 0x20 → decode (.select sk) = .decW32) ∧
  ∀ s : State, s.params.Legal → 32 ≤ s.params.maxBits →
    ∃ r, exec .decW32 s = .next { s with out := r } ∧ r.fmt = 4#3 ∧ r.fc = 0#16 ∧ r.cc = 0#24 ∧ r.nbits = 32#7 ∧
      ∀ b k, b < 4 → k < 8 → r.uid.getLsbD (8 * b + k) = s.buf.read (8 * b + (7 - k))

/-- R167: a selector key with any other length is DEC_UNK. It completes on every legal instance, gives the bit count and is
the UnknownFormat condition. -/
def Obligations.DecodeUnknownCompletes : Prop :=
  (∀ (site : Bit) (n : Count), n ≠ 26#7 → n ≠ 32#7 → n ≠ 35#7 → n ≠ 37#7 →
    decode (.select (selectorKey site n)) = .decUnk) ∧
  ∀ s : State, s.params.Legal →
    conditions .decUnk s = [.unknownFormat] ∧
    exec .decUnk s = .next { s with
      out := { fmt := 5#3, fc := 0#16, cc := 0#24, uid := 0#32, nbits := s.count } }

/-- A decode rule whose operand cells the buffer does not have stops, on a legal instance; no frame of a run meets it. The
stop is the model's (log entry 10). -/
def Obligations.DecodeBeyondBufferFaults : Prop :=
  ∀ s : State, s.params.Legal →
    (s.params.maxBits < 26 → exec .decW26n s = .fault (.noSuchCell s.params.maxBits) ∧
      exec .decW26s s = .fault (.noSuchCell s.params.maxBits)) ∧
    (s.params.maxBits < 35 → exec .decW35 s = .fault (.noSuchCell s.params.maxBits)) ∧
    (s.params.maxBits < 37 → exec .decW37 s = .fault (.noSuchCell s.params.maxBits)) ∧
    (s.params.maxBits < 32 → exec .decW32 s = .fault (.noSuchCell s.params.maxBits))

/-- The frame of the six decode rules: only the result registers change, and only they; every cell reads as before. -/
def Obligations.DecodeRulesFrame : Prop :=
  ∀ (i : Instr) (s t : State),
    i = .decW26n ∨ i = .decW26s ∨ i = .decW35 ∨ i = .decW37 ∨ i = .decW32 ∨ i = .decUnk → exec i s = .next t →
    t = { s with out := t.out } ∧ ∀ a, t.buf.read a = s.buf.read a

/-- R160: the rule the selector key selects gives what `Decode` gives, for every frame inside the buffer. -/
def Obligations.SelectedRuleIsDecode : Prop :=
  ∀ s : State, s.params.Legal → s.count.toNat ≤ s.params.maxBits →
    exec s.decodeRule s = .next { s with out := decodeResult s.buf s.count s.cfgSite }

/-- 41_frame_end.md section 3: a frame-end cycle runs the decode rule its selector key selects, then pulses and clears. -/
def Obligations.FrameEndRunsSelectedRule : Prop :=
  ∀ s : State, s.params.Legal → s.count.toNat ≤ s.params.maxBits →
    exec .fend s =
      onNext (exec s.decodeRule s) (fun t => { t with outValid := true, count := 0#7, elapsed := 0 })

/-- R168: the fields a variant does not carry are 0, `nbits` is the length, and each field is zero-extended. -/
def Obligations.UnusedFieldsAreZero : Prop :=
  ∀ (m : Memory) (n : Count) (site : Bit),
    (decodeResult m n site).nbits = n ∧
    ((decodeResult m n site).fmt = 0#3 → (decodeResult m n site).fc = 0#16 ∧ (decodeResult m n site).uid = 0#32) ∧
    ((decodeResult m n site).fmt = 1#3 → (decodeResult m n site).uid = 0#32 ∧
      (decodeResult m n site).fc.toNat < 2 ^ 8 ∧ (decodeResult m n site).cc.toNat < 2 ^ 16) ∧
    ((decodeResult m n site).fmt = 2#3 → (decodeResult m n site).uid = 0#32 ∧
      (decodeResult m n site).fc.toNat < 2 ^ 12 ∧ (decodeResult m n site).cc.toNat < 2 ^ 20) ∧
    ((decodeResult m n site).fmt = 3#3 → (decodeResult m n site).uid = 0#32 ∧
      (decodeResult m n site).fc.toNat < 2 ^ 15 ∧ (decodeResult m n site).cc.toNat < 2 ^ 18) ∧
    ((decodeResult m n site).fmt = 4#3 → (decodeResult m n site).fc = 0#16 ∧ (decodeResult m n site).cc = 0#24) ∧
    ((decodeResult m n site).fmt = 5#3 →
      (decodeResult m n site).fc = 0#16 ∧ (decodeResult m n site).cc = 0#24 ∧ (decodeResult m n site).uid = 0#32) ∧
    (decodeResult m n site).fmt.toNat ≤ 5

/-- 42_decode.md section 3 derives it: the cells each format ignores: two buffers that agree on the others decode alike. -/
def Obligations.IgnoredBitsHaveNoEffect : Prop :=
  ∀ (m m' : Memory) (site : Bit),
    ((∀ i, i < 26 → i ≠ 0 → i ≠ 25 → m.read i = m'.read i) → decodeResult m 26#7 site = decodeResult m' 26#7 site) ∧
    ((∀ i, i < 35 → i ≠ 0 → i ≠ 1 → i ≠ 34 → m.read i = m'.read i) →
      decodeResult m 35#7 site = decodeResult m' 35#7 site) ∧
    ((∀ i, i < 37 → i ≠ 0 → i ≠ 1 → i ≠ 17 → i ≠ 36 → m.read i = m'.read i) →
      decodeResult m 37#7 site = decodeResult m' 37#7 site) ∧
    ((∀ i, i < 32 → m.read i = m'.read i) → decodeResult m 32#7 site = decodeResult m' 32#7 site) ∧
    (∀ n : Count, n ≠ 26#7 → n ≠ 35#7 → n ≠ 37#7 → n ≠ 32#7 → decodeResult m n site = decodeResult m' n site)

/-- 42_decode.md section 3 derives it: the mode changes the result for 26-bit frames, and for no other length. -/
def Obligations.ModeMattersForLength26Only : Prop :=
  ∀ (m : Memory) (n : Count),
    (n ≠ 26#7 → decodeResult m n true = decodeResult m n false) ∧
    decodeResult m 26#7 true ≠ decodeResult m 26#7 false

/-! ## Conditions and whole-machine rules -/

/-- 60_exceptions.md section 1: which operations raise which condition, in a state whose frame is inside the buffer. -/
def Obligations.ConditionsRaised : Prop :=
  ∀ (i : Instr) (s : State), s.params.Legal → s.count.toNat ≤ s.params.maxBits →
    (∀ line : Bit, Condition.bufferOverflow line ∈ conditions i s ↔
      (s.count.toNat = s.params.maxBits ∧ ((i = .rec0 ∧ line = false) ∨ (i = .rec1 ∧ line = true) ∨ i = .rec01)) ∨
      (s.count.toNat + 1 = s.params.maxBits ∧ i = .rec01 ∧ line = true) ∨
      (s.params.maxBits = 1 ∧ i = .fendRec01 ∧ line = true)) ∧
    (Condition.unknownFormat ∈ conditions i s ↔
      ((i = .fend ∨ i = .fendRec0 ∨ i = .fendRec1 ∨ i = .fendRec01) ∧
        s.count ≠ 26#7 ∧ s.count ≠ 32#7 ∧ s.count ≠ 35#7 ∧ s.count ≠ 37#7) ∨ i = .decUnk)

/-- 60_exceptions.md section 1: a dropped bit is as if its edge had not been detected. -/
def Obligations.DroppedBitIsNoEdge : Prop :=
  ∀ s : State, s.params.Legal →
    (s.params.maxBits ≤ s.count.toNat →
      exec .rec0 s = exec .nop s ∧ exec .rec1 s = exec .nop s ∧ exec .rec01 s = exec .nop s) ∧
    (s.count.toNat + 1 = s.params.maxBits → exec .rec01 s = exec .rec0 s) ∧
    (s.params.maxBits = 1 → exec .fendRec01 s = exec .fendRec0 s)

/-- 70_reset_and_hazards.md section 3: once the buffer is full, edges are dropped and do not refresh the timer: whatever edges
come, the frame ends QUIET_CYCLES cycles after the last stored bit, with its bits as they were. -/
def Obligations.FullBufferFrameStillEnds : Prop :=
  ∀ (s : State) (cs : List CoreInput), s.params.Legal → s.count.toNat = s.params.maxBits → s.elapsed = 1 →
    (∀ c ∈ cs, c.rst = false) → cs.length < s.params.quietCycles →
    ∃ t, runCore cs s = .next t ∧ t.count = s.count ∧ t.buf = s.buf ∧ t.out = s.out ∧ t.elapsed = cs.length + 1 ∧
      (t.fe = true ↔ cs.length + 1 = s.params.quietCycles)

/-- 00_scope.md section 6 (R19's two levels): a step at pin level is the core-level cycle whose input word is `rst` and the
detected events: whenever the step answers a next state so does the core-level cycle, and the core registers agree. -/
def Obligations.PinLevelRefinesCoreLevel : Prop :=
  ∀ s t : State, step s = .next t → ∃ u, coreCycle s.coreInput s = .next u ∧ t.CoreAgrees u

/-- 20_memory.md section 6: stale and unwritten cells are never observable. Two states that differ only in cells at indices
from `count` on make the same step, up to such cells. -/
def Obligations.StaleCellsAreUnobservable : Prop :=
  ∀ (s t : State) (m : Memory), s.Inv → (∀ i, i < s.count.toNat → m.lookup i = s.buf.lookup i) → step s = .next t →
    ∃ m', step { s with buf := m } = .next { t with buf := m' } ∧
      ∀ i, i < t.count.toNat → m'.lookup i = t.buf.lookup i

/-- 41_frame_end.md section 4, 30_encoding.md section 6: a whole frame. From Idle, bits with `gap` idle cycles after each,
`gap + 2 ≤ QUIET_CYCLES`, then silence until QUIET_CYCLES cycles after the last bit: the frame is decoded, from exactly
those bits in their order. -/
def Obligations.WholeFrameIsDecoded : Prop :=
  ∀ (s : State) (bs : List Bit) (gap : Nat), s.params.Legal → s.count = 0#7 → s.elapsed = 0 →
    bs ≠ [] → bs.length ≤ s.params.maxBits → gap + 2 ≤ s.params.quietCycles →
    ∃ t, runCore (bs.flatMap (fun b => (Stmt.ofBit b).input :: List.replicate gap Stmt.nop.input) ++
          List.replicate (s.params.quietCycles - gap) Stmt.nop.input) s = .next t ∧
      (∀ i, i < bs.length → t.buf.lookup i = bs[i]?) ∧
      t.out = decodeResult t.buf (BitVec.ofNat 7 bs.length) s.cfgSite ∧
      t.outValid = true ∧ t.count = 0#7 ∧ t.elapsed = 0
end

