-- ==== Sys2Proof/Laws/State.lean ====
section
/-! SUPPORT. One lemma per field and register update: what the field holds after it. -/

namespace Sys2Proof.Machine

variable (s : State)

/-! ### setLines -/

@[simp] theorem State.setLines_params (a b : LineFront) : (s.setLines a b).params = s.params := rfl
@[simp] theorem State.setLines_line0 (a b : LineFront) : (s.setLines a b).line0 = a := rfl
@[simp] theorem State.setLines_line1 (a b : LineFront) : (s.setLines a b).line1 = b := rfl
@[simp] theorem State.setLines_buf (a b : LineFront) : (s.setLines a b).buf = s.buf := rfl
@[simp] theorem State.setLines_count (a b : LineFront) : (s.setLines a b).count = s.count := rfl
@[simp] theorem State.setLines_elapsed (a b : LineFront) : (s.setLines a b).elapsed = s.elapsed := rfl
@[simp] theorem State.setLines_cfgSite (a b : LineFront) : (s.setLines a b).cfgSite = s.cfgSite := rfl
@[simp] theorem State.setLines_outValid (a b : LineFront) : (s.setLines a b).outValid = s.outValid := rfl
@[simp] theorem State.setLines_out (a b : LineFront) : (s.setLines a b).out = s.out := rfl
@[simp] theorem State.setLines_inputs (a b : LineFront) : (s.setLines a b).inputs = s.inputs := rfl
@[simp] theorem State.setLines_cycle (a b : LineFront) : (s.setLines a b).cycle = s.cycle := rfl

/-! ### setBuf -/

@[simp] theorem State.setBuf_params (m : Memory) : (s.setBuf m).params = s.params := rfl
@[simp] theorem State.setBuf_line0 (m : Memory) : (s.setBuf m).line0 = s.line0 := rfl
@[simp] theorem State.setBuf_line1 (m : Memory) : (s.setBuf m).line1 = s.line1 := rfl
@[simp] theorem State.setBuf_buf (m : Memory) : (s.setBuf m).buf = m := rfl
@[simp] theorem State.setBuf_count (m : Memory) : (s.setBuf m).count = s.count := rfl
@[simp] theorem State.setBuf_elapsed (m : Memory) : (s.setBuf m).elapsed = s.elapsed := rfl
@[simp] theorem State.setBuf_cfgSite (m : Memory) : (s.setBuf m).cfgSite = s.cfgSite := rfl
@[simp] theorem State.setBuf_outValid (m : Memory) : (s.setBuf m).outValid = s.outValid := rfl
@[simp] theorem State.setBuf_out (m : Memory) : (s.setBuf m).out = s.out := rfl
@[simp] theorem State.setBuf_inputs (m : Memory) : (s.setBuf m).inputs = s.inputs := rfl
@[simp] theorem State.setBuf_cycle (m : Memory) : (s.setBuf m).cycle = s.cycle := rfl

/-! ### setCount -/

@[simp] theorem State.setCount_params (n : Count) : (s.setCount n).params = s.params := rfl
@[simp] theorem State.setCount_line0 (n : Count) : (s.setCount n).line0 = s.line0 := rfl
@[simp] theorem State.setCount_line1 (n : Count) : (s.setCount n).line1 = s.line1 := rfl
@[simp] theorem State.setCount_buf (n : Count) : (s.setCount n).buf = s.buf := rfl
@[simp] theorem State.setCount_count (n : Count) : (s.setCount n).count = n := rfl
@[simp] theorem State.setCount_elapsed (n : Count) : (s.setCount n).elapsed = s.elapsed := rfl
@[simp] theorem State.setCount_cfgSite (n : Count) : (s.setCount n).cfgSite = s.cfgSite := rfl
@[simp] theorem State.setCount_outValid (n : Count) : (s.setCount n).outValid = s.outValid := rfl
@[simp] theorem State.setCount_out (n : Count) : (s.setCount n).out = s.out := rfl
@[simp] theorem State.setCount_inputs (n : Count) : (s.setCount n).inputs = s.inputs := rfl
@[simp] theorem State.setCount_cycle (n : Count) : (s.setCount n).cycle = s.cycle := rfl

/-! ### setElapsed -/

@[simp] theorem State.setElapsed_params (n : Nat) : (s.setElapsed n).params = s.params := rfl
@[simp] theorem State.setElapsed_line0 (n : Nat) : (s.setElapsed n).line0 = s.line0 := rfl
@[simp] theorem State.setElapsed_line1 (n : Nat) : (s.setElapsed n).line1 = s.line1 := rfl
@[simp] theorem State.setElapsed_buf (n : Nat) : (s.setElapsed n).buf = s.buf := rfl
@[simp] theorem State.setElapsed_count (n : Nat) : (s.setElapsed n).count = s.count := rfl
@[simp] theorem State.setElapsed_elapsed (n : Nat) : (s.setElapsed n).elapsed = n := rfl
@[simp] theorem State.setElapsed_cfgSite (n : Nat) : (s.setElapsed n).cfgSite = s.cfgSite := rfl
@[simp] theorem State.setElapsed_outValid (n : Nat) : (s.setElapsed n).outValid = s.outValid := rfl
@[simp] theorem State.setElapsed_out (n : Nat) : (s.setElapsed n).out = s.out := rfl
@[simp] theorem State.setElapsed_inputs (n : Nat) : (s.setElapsed n).inputs = s.inputs := rfl
@[simp] theorem State.setElapsed_cycle (n : Nat) : (s.setElapsed n).cycle = s.cycle := rfl

/-! ### setCfgSite -/

@[simp] theorem State.setCfgSite_params (b : Bit) : (s.setCfgSite b).params = s.params := rfl
@[simp] theorem State.setCfgSite_line0 (b : Bit) : (s.setCfgSite b).line0 = s.line0 := rfl
@[simp] theorem State.setCfgSite_line1 (b : Bit) : (s.setCfgSite b).line1 = s.line1 := rfl
@[simp] theorem State.setCfgSite_buf (b : Bit) : (s.setCfgSite b).buf = s.buf := rfl
@[simp] theorem State.setCfgSite_count (b : Bit) : (s.setCfgSite b).count = s.count := rfl
@[simp] theorem State.setCfgSite_elapsed (b : Bit) : (s.setCfgSite b).elapsed = s.elapsed := rfl
@[simp] theorem State.setCfgSite_cfgSite (b : Bit) : (s.setCfgSite b).cfgSite = b := rfl
@[simp] theorem State.setCfgSite_outValid (b : Bit) : (s.setCfgSite b).outValid = s.outValid := rfl
@[simp] theorem State.setCfgSite_out (b : Bit) : (s.setCfgSite b).out = s.out := rfl
@[simp] theorem State.setCfgSite_inputs (b : Bit) : (s.setCfgSite b).inputs = s.inputs := rfl
@[simp] theorem State.setCfgSite_cycle (b : Bit) : (s.setCfgSite b).cycle = s.cycle := rfl

/-! ### setOutValid -/

@[simp] theorem State.setOutValid_params (b : Bit) : (s.setOutValid b).params = s.params := rfl
@[simp] theorem State.setOutValid_line0 (b : Bit) : (s.setOutValid b).line0 = s.line0 := rfl
@[simp] theorem State.setOutValid_line1 (b : Bit) : (s.setOutValid b).line1 = s.line1 := rfl
@[simp] theorem State.setOutValid_buf (b : Bit) : (s.setOutValid b).buf = s.buf := rfl
@[simp] theorem State.setOutValid_count (b : Bit) : (s.setOutValid b).count = s.count := rfl
@[simp] theorem State.setOutValid_elapsed (b : Bit) : (s.setOutValid b).elapsed = s.elapsed := rfl
@[simp] theorem State.setOutValid_cfgSite (b : Bit) : (s.setOutValid b).cfgSite = s.cfgSite := rfl
@[simp] theorem State.setOutValid_outValid (b : Bit) : (s.setOutValid b).outValid = b := rfl
@[simp] theorem State.setOutValid_out (b : Bit) : (s.setOutValid b).out = s.out := rfl
@[simp] theorem State.setOutValid_inputs (b : Bit) : (s.setOutValid b).inputs = s.inputs := rfl
@[simp] theorem State.setOutValid_cycle (b : Bit) : (s.setOutValid b).cycle = s.cycle := rfl

/-! ### setOut -/

@[simp] theorem State.setOut_params (r : Result) : (s.setOut r).params = s.params := rfl
@[simp] theorem State.setOut_line0 (r : Result) : (s.setOut r).line0 = s.line0 := rfl
@[simp] theorem State.setOut_line1 (r : Result) : (s.setOut r).line1 = s.line1 := rfl
@[simp] theorem State.setOut_buf (r : Result) : (s.setOut r).buf = s.buf := rfl
@[simp] theorem State.setOut_count (r : Result) : (s.setOut r).count = s.count := rfl
@[simp] theorem State.setOut_elapsed (r : Result) : (s.setOut r).elapsed = s.elapsed := rfl
@[simp] theorem State.setOut_cfgSite (r : Result) : (s.setOut r).cfgSite = s.cfgSite := rfl
@[simp] theorem State.setOut_outValid (r : Result) : (s.setOut r).outValid = s.outValid := rfl
@[simp] theorem State.setOut_out (r : Result) : (s.setOut r).out = r := rfl
@[simp] theorem State.setOut_inputs (r : Result) : (s.setOut r).inputs = s.inputs := rfl
@[simp] theorem State.setOut_cycle (r : Result) : (s.setOut r).cycle = s.cycle := rfl

/-! ### setInputs -/

@[simp] theorem State.setInputs_params (ps : List Pins) : (s.setInputs ps).params = s.params := rfl
@[simp] theorem State.setInputs_line0 (ps : List Pins) : (s.setInputs ps).line0 = s.line0 := rfl
@[simp] theorem State.setInputs_line1 (ps : List Pins) : (s.setInputs ps).line1 = s.line1 := rfl
@[simp] theorem State.setInputs_buf (ps : List Pins) : (s.setInputs ps).buf = s.buf := rfl
@[simp] theorem State.setInputs_count (ps : List Pins) : (s.setInputs ps).count = s.count := rfl
@[simp] theorem State.setInputs_elapsed (ps : List Pins) : (s.setInputs ps).elapsed = s.elapsed := rfl
@[simp] theorem State.setInputs_cfgSite (ps : List Pins) : (s.setInputs ps).cfgSite = s.cfgSite := rfl
@[simp] theorem State.setInputs_outValid (ps : List Pins) : (s.setInputs ps).outValid = s.outValid := rfl
@[simp] theorem State.setInputs_out (ps : List Pins) : (s.setInputs ps).out = s.out := rfl
@[simp] theorem State.setInputs_inputs (ps : List Pins) : (s.setInputs ps).inputs = ps := rfl
@[simp] theorem State.setInputs_cycle (ps : List Pins) : (s.setInputs ps).cycle = s.cycle := rfl

/-! ### tick -/

@[simp] theorem State.tick_params : s.tick.params = s.params := rfl
@[simp] theorem State.tick_line0 : s.tick.line0 = s.line0 := rfl
@[simp] theorem State.tick_line1 : s.tick.line1 = s.line1 := rfl
@[simp] theorem State.tick_buf : s.tick.buf = s.buf := rfl
@[simp] theorem State.tick_count : s.tick.count = s.count := rfl
@[simp] theorem State.tick_elapsed : s.tick.elapsed = s.elapsed := rfl
@[simp] theorem State.tick_cfgSite : s.tick.cfgSite = s.cfgSite := rfl
@[simp] theorem State.tick_outValid : s.tick.outValid = s.outValid := rfl
@[simp] theorem State.tick_out : s.tick.out = s.out := rfl
@[simp] theorem State.tick_inputs : s.tick.inputs = s.inputs.tail := rfl
@[simp] theorem State.tick_cycle : s.tick.cycle = s.cycle + 1 := rfl

end Sys2Proof.Machine
end

