-- ==== Sys2Proof/Laws/Memory.lean ====
section
/-! SUPPORT. The bit buffer as storage: read after write, and that a write keeps the canonical form. -/

namespace Sys2Proof.Machine

@[simp] theorem Memory.lookup_nil (i : Nat) : Memory.lookup [] i = none := rfl

theorem Memory.lookup_cons (a : Nat) (w : Bit) (rest : Memory) (i : Nat) :
    Memory.lookup ((a, w) :: rest) i = if a = i then some w else Memory.lookup rest i := rfl

@[simp] theorem Memory.lookup_write_same (m : Memory) (i : Nat) (v : Bit) : (m.write i v).lookup i = some v := by
  induction m with
  | nil => simp [Memory.write, Memory.lookup_cons]
  | cons p rest ih =>
    obtain ⟨a, w⟩ := p
    simp only [Memory.write]
    split
    · simp [Memory.lookup_cons]
    · split
      · simp [Memory.lookup_cons]
      · rename_i h
        simp [Memory.lookup_cons, Ne.symm h, ih]

theorem Memory.lookup_write_of_ne (m : Memory) {i j : Nat} (v : Bit) (h : j ≠ i) :
    (m.write i v).lookup j = m.lookup j := by
  induction m with
  | nil => simp [Memory.write, Memory.lookup_cons, Ne.symm h]
  | cons p rest ih =>
    obtain ⟨a, w⟩ := p
    simp only [Memory.write]
    split
    · simp [Memory.lookup_cons, Ne.symm h]
    · split
      · rename_i _ hia
        simp [Memory.lookup_cons, ← hia, Ne.symm h]
      · simp [Memory.lookup_cons, ih]

@[simp] theorem Memory.read_write_same (m : Memory) (i : Nat) (v : Bit) : (m.write i v).read i = v := by
  simp [Memory.read]

theorem Memory.read_write_of_ne (m : Memory) {i j : Nat} (v : Bit) (h : j ≠ i) :
    (m.write i v).read j = m.read j := by
  simp [Memory.read, Memory.lookup_write_of_ne m v h]

/-- A written buffer's cells are the new one and old ones. -/
theorem Memory.mem_write {m : Memory} {i : Nat} {v : Bit} {c : Nat × Bit} (h : c ∈ m.write i v) :
    c = (i, v) ∨ c ∈ m := by
  induction m with
  | nil => simpa [Memory.write] using h
  | cons p rest ih =>
    obtain ⟨a, w⟩ := p
    simp only [Memory.write] at h
    split at h
    · simpa using h
    · split at h
      · rcases List.mem_cons.mp h with h | h
        · exact .inl h
        · exact .inr (List.mem_cons_of_mem _ h)
      · rcases List.mem_cons.mp h with h | h
        · exact .inr (by simp [h])
        · exact (ih h).imp id (List.mem_cons_of_mem _)

/-- A write keeps the indices strictly rising. -/
theorem Memory.wf_write {m : Memory} (i : Nat) (v : Bit) (h : Memory.wf m) : Memory.wf (m.write i v) := by
  induction m with
  | nil => simp [Memory.write, Memory.wf]
  | cons p rest ih =>
    obtain ⟨a, w⟩ := p
    simp only [Memory.wf, List.map_cons, List.pairwise_cons, List.mem_map] at h
    obtain ⟨hhead, htail⟩ := h
    have hrest := ih htail
    simp only [Memory.write]
    split
    · rename_i hia
      simp only [Memory.wf, List.map_cons, List.pairwise_cons, List.mem_cons, List.mem_map]
      refine ⟨?_, fun b hb => hhead b hb, htail⟩
      rintro b (rfl | hb)
      · exact hia
      · exact hia.trans (hhead b hb)
    · split
      · rename_i _ hia
        subst hia
        simp only [Memory.wf, List.map_cons, List.pairwise_cons, List.mem_map]
        exact ⟨hhead, htail⟩
      · rename_i h1 h2
        simp only [Memory.wf, List.map_cons, List.pairwise_cons, List.mem_map]
        refine ⟨?_, hrest⟩
        rintro b ⟨c, hc, rfl⟩
        rcases Memory.mem_write hc with rfl | hc
        · simp only; omega
        · exact hhead _ ⟨c, hc, rfl⟩

/-- A write never forgets a cell. -/
theorem Memory.isSome_lookup_write {m : Memory} {i j : Nat} {v : Bit} (h : (m.lookup j).isSome) :
    ((m.write i v).lookup j).isSome := by
  by_cases hj : j = i
  · simp [hj]
  · rwa [Memory.lookup_write_of_ne m v hj]

end Sys2Proof.Machine
end

