-- ==== Sys2Proof/Laws/Ops.lean ====
section
/-! SUPPORT. What each shared operation can do, once per operation: answers, appends, the elapsed update, the line front
ends, reset and the end of a cycle. -/

namespace Sys2Proof.Machine

/-! ## Answers -/

@[simp] theorem onNext_next (t : State) (f : State → State) : onNext (.next t) f = .next (f t) := rfl
@[simp] theorem onNext_fault (r : Fault) (f : State → State) : onNext (.fault r) f = .fault r := rfl
@[simp] theorem onNext_refused (r : Refusal) (f : State → State) : onNext (.refused r) f = .refused r := rfl

/-- A next state after `onNext` comes from a next state before it. -/
theorem onNext_eq_next_iff {o : Answer} {f : State → State} {t : State} :
    onNext o f = .next t ↔ ∃ u, o = .next u ∧ f u = t := by
  cases o <;> simp

/-- `configured` answers a next state exactly on a legal instance. -/
theorem configured_eq_next_iff {s t : State} {o : Answer} :
    configured s o = .next t ↔ s.params.Legal ∧ o = .next t := by
  unfold configured
  split
  · rename_i h; exact ⟨fun e => ⟨h, e⟩, And.right⟩
  · rename_i h; exact ⟨fun e => (nomatch e), fun e => absurd e.1 h⟩

theorem configured_of_legal {s : State} (o : Answer) (h : s.params.Legal) : configured s o = o := if_pos h

theorem configured_of_not_legal {s : State} (o : Answer) (h : ¬ s.params.Legal) :
    configured s o = .refused .illegalParameters := if_neg h

/-! ## Appending -/

/-- Below capacity an append stores its bit at index `count`. -/
theorem appendBit_of_lt {s : State} (v : Bit) (h : s.count.toNat < s.params.maxBits) :
    appendBit v s = ((s.setBuf (s.buf.write s.count.toNat v)).setCount (s.count + 1#7), true) := if_pos h

/-- At capacity an append drops its bit. -/
theorem appendBit_of_full {s : State} (v : Bit) (h : s.params.maxBits ≤ s.count.toNat) :
    appendBit v s = (s, false) := if_neg (Nat.not_lt.mpr h)

/-- The one case split of an append: stored, or dropped. -/
theorem appendBit_cases (v : Bit) (s : State) :
    (s.count.toNat < s.params.maxBits ∧
      appendBit v s = ((s.setBuf (s.buf.write s.count.toNat v)).setCount (s.count + 1#7), true)) ∨
    (s.params.maxBits ≤ s.count.toNat ∧ appendBit v s = (s, false)) := by
  rcases Nat.lt_or_ge s.count.toNat s.params.maxBits with h | h
  · exact .inl ⟨h, appendBit_of_lt v h⟩
  · exact .inr ⟨h, appendBit_of_full v h⟩

/-- An append changes nothing but the buffer and the count. -/
theorem appendBit_eq (v : Bit) (s : State) :
    (appendBit v s).1 = (s.setBuf (appendBit v s).1.buf).setCount (appendBit v s).1.count := by
  rcases appendBit_cases v s with ⟨-, h⟩ | ⟨-, h⟩ <;> rw [h] <;> rfl

/-- The appends of a cycle change nothing but the buffer and the count. -/
theorem appendAll_eq (bits : List Bit) (s : State) :
    (appendAll bits s).1 = (s.setBuf (appendAll bits s).1.buf).setCount (appendAll bits s).1.count := by
  induction bits generalizing s with
  | nil => rfl
  | cons v vs ih =>
    have h := ih (appendBit v s).1
    rw [appendBit_eq v s] at h
    simp only [appendAll]
    rw [appendBit_eq v s, h]
    rfl

section
variable (bits : List Bit) (s : State)

@[simp] theorem appendAll_nil : appendAll [] s = (s, false) := rfl
@[simp] theorem appendAll_params : (appendAll bits s).1.params = s.params := by rw [appendAll_eq]; rfl
@[simp] theorem appendAll_line0 : (appendAll bits s).1.line0 = s.line0 := by rw [appendAll_eq]; rfl
@[simp] theorem appendAll_line1 : (appendAll bits s).1.line1 = s.line1 := by rw [appendAll_eq]; rfl
@[simp] theorem appendAll_elapsed : (appendAll bits s).1.elapsed = s.elapsed := by rw [appendAll_eq]; rfl
@[simp] theorem appendAll_cfgSite : (appendAll bits s).1.cfgSite = s.cfgSite := by rw [appendAll_eq]; rfl
@[simp] theorem appendAll_outValid : (appendAll bits s).1.outValid = s.outValid := by rw [appendAll_eq]; rfl
@[simp] theorem appendAll_out : (appendAll bits s).1.out = s.out := by rw [appendAll_eq]; rfl
@[simp] theorem appendAll_inputs : (appendAll bits s).1.inputs = s.inputs := by rw [appendAll_eq]; rfl
@[simp] theorem appendAll_cycle : (appendAll bits s).1.cycle = s.cycle := by rw [appendAll_eq]; rfl

end

/-- The count after an append below capacity is one more, with no wrap. -/
theorem toNat_count_succ {s : State} (hlegal : s.params.Legal) (h : s.count.toNat < s.params.maxBits) :
    (s.count + 1#7).toNat = s.count.toNat + 1 := by
  have h1 := hlegal.1.2
  rw [BitVec.toNat_add]
  have : (1#7 : Count).toNat = 1 := rfl
  rw [this]
  omega

/-- The appends of a cycle raise the count by their number, bounded by the capacity. -/
theorem appendAll_count (bits : List Bit) {s : State} (hlegal : s.params.Legal)
    (hle : s.count.toNat ≤ s.params.maxBits) :
    (appendAll bits s).1.count.toNat = min (s.count.toNat + bits.length) s.params.maxBits := by
  induction bits generalizing s with
  | nil => simp; omega
  | cons v vs ih =>
    simp only [appendAll, List.length_cons]
    rcases appendBit_cases v s with ⟨h, he⟩ | ⟨h, he⟩
    · have hc := toNat_count_succ hlegal h
      rw [he]
      have := ih (s := (s.setBuf (s.buf.write s.count.toNat v)).setCount (s.count + 1#7)) hlegal
        (by simp only [State.setCount_count, State.setCount_params, State.setBuf_params]; omega)
      simp only [State.setCount_count, State.setCount_params, State.setBuf_params] at this
      rw [this]; omega
    · rw [he, ih hlegal hle]; omega

/-- Whether the appends of a cycle stored a bit: there was one, and there was room. -/
theorem appendAll_stored (bits : List Bit) (s : State) :
    (appendAll bits s).2 = (!bits.isEmpty && decide (s.count.toNat < s.params.maxBits)) := by
  induction bits generalizing s with
  | nil => rfl
  | cons v vs ih =>
    simp only [appendAll, List.isEmpty_cons, Bool.not_false, Bool.true_and]
    rcases appendBit_cases v s with ⟨h, he⟩ | ⟨h, he⟩
    · simp [he, h]
    · simp [he, ih, Nat.not_lt.mpr h]

/-- The appends of a cycle leave every cell below the count as it was. -/
theorem appendAll_lookup_old (bits : List Bit) {s : State} (hlegal : s.params.Legal) {i : Nat}
    (hi : i < s.count.toNat) : (appendAll bits s).1.buf.lookup i = s.buf.lookup i := by
  induction bits generalizing s with
  | nil => rfl
  | cons v vs ih =>
    simp only [appendAll]
    rcases appendBit_cases v s with ⟨h, he⟩ | ⟨h, he⟩
    · have hc := toNat_count_succ hlegal h
      rw [he, ih (s := (s.setBuf (s.buf.write s.count.toNat v)).setCount (s.count + 1#7)) hlegal
        (by simp only [State.setCount_count]; omega)]
      simp only [State.setCount_buf, State.setBuf_buf]
      exact Memory.lookup_write_of_ne _ _ (by omega)
    · rw [he, ih hlegal hi]

/-- The appends of a cycle leave every cell from `count + number of bits` on as it was. -/
theorem appendAll_lookup_beyond (bits : List Bit) {s : State} (hlegal : s.params.Legal) {i : Nat}
    (hi : s.count.toNat + bits.length ≤ i) : (appendAll bits s).1.buf.lookup i = s.buf.lookup i := by
  induction bits generalizing s with
  | nil => rfl
  | cons v vs ih =>
    simp only [appendAll]
    simp only [List.length_cons] at hi
    rcases appendBit_cases v s with ⟨h, he⟩ | ⟨h, he⟩
    · have hc := toNat_count_succ hlegal h
      rw [he, ih (s := (s.setBuf (s.buf.write s.count.toNat v)).setCount (s.count + 1#7)) hlegal
        (by simp only [State.setCount_count]; omega)]
      simp only [State.setCount_buf, State.setBuf_buf]
      exact Memory.lookup_write_of_ne _ _ (by omega)
    · rw [he, ih hlegal (by omega)]

/-- The appends of a cycle store their bits from index `count` on, in order, as far as there is room. -/
theorem appendAll_lookup_new (bits : List Bit) {s : State} (hlegal : s.params.Legal) {k : Nat}
    (hk : k < bits.length) (hroom : s.count.toNat + k < s.params.maxBits) :
    (appendAll bits s).1.buf.lookup (s.count.toNat + k) = bits[k]? := by
  induction bits generalizing s k with
  | nil => simp at hk
  | cons v vs ih =>
    simp only [appendAll]
    have h : s.count.toNat < s.params.maxBits := by omega
    have hc := toNat_count_succ hlegal h
    rw [appendBit_of_lt v h]
    cases k with
    | zero =>
      rw [appendAll_lookup_old vs (s := (s.setBuf (s.buf.write s.count.toNat v)).setCount (s.count + 1#7)) hlegal
        (by simp only [State.setCount_count]; omega)]
      simp
    | succ k =>
      have := ih (s := (s.setBuf (s.buf.write s.count.toNat v)).setCount (s.count + 1#7)) (k := k) hlegal
        (by simpa using hk) (by simp only [State.setCount_count, State.setCount_params, State.setBuf_params]; omega)
      simp only [State.setCount_count] at this
      rw [hc] at this
      rw [show s.count.toNat + (k + 1) = s.count.toNat + 1 + k by omega, this]
      simp

/-- The appends of a cycle keep the buffer's canonical form. -/
theorem appendAll_wf (bits : List Bit) {s : State} (h : Memory.wf s.buf) : Memory.wf (appendAll bits s).1.buf := by
  induction bits generalizing s with
  | nil => exact h
  | cons v vs ih =>
    simp only [appendAll]
    rcases appendBit_cases v s with ⟨-, he⟩ | ⟨-, he⟩
    · rw [he]; exact ih (Memory.wf_write _ _ h)
    · rw [he]; exact ih h

/-- The appends of a cycle write inside the buffer only. -/
theorem appendAll_range (bits : List Bit) {s : State} (h : ∀ i b, (i, b) ∈ s.buf → i < s.params.maxBits) :
    ∀ i b, (i, b) ∈ (appendAll bits s).1.buf → i < s.params.maxBits := by
  induction bits generalizing s with
  | nil => exact h
  | cons v vs ih =>
    simp only [appendAll]
    rcases appendBit_cases v s with ⟨hlt, he⟩ | ⟨-, he⟩
    · rw [he]
      refine ih (s := (s.setBuf (s.buf.write s.count.toNat v)).setCount (s.count + 1#7)) ?_
      intro i b hb
      rcases Memory.mem_write hb with hb | hb
      · cases hb; exact hlt
      · exact h i b hb
    · rw [he]; exact ih h

/-! ## The elapsed update -/

@[simp] theorem elapsedNext_appended (q e : Nat) (k : Count) : elapsedNext q e true k = 1 := rfl

@[simp] theorem elapsedNext_empty (q e : Nat) : elapsedNext q e false 0#7 = 0 := rfl

/-- Without a stored bit: 0 for an empty frame, else one more, saturating. -/
theorem elapsedNext_not_appended (q e : Nat) (k : Count) :
    elapsedNext q e false k = if k = 0#7 then 0 else min (e + 1) q := rfl

theorem elapsedNext_running (q e : Nat) {k : Count} (h : k ≠ 0#7) : elapsedNext q e false k = min (e + 1) q := by
  simp [elapsedNext, h]

/-- The elapsed update never passes the quiet interval. -/
theorem elapsedNext_le {q e : Nat} (hq : 1 ≤ q) (a : Bool) (k : Count) : elapsedNext q e a k ≤ q := by
  unfold elapsedNext
  split
  · exact hq
  · split <;> omega

/-! ## The last part of a cycle -/

section
variable (bits : List Bit) (s : State)

@[simp] theorem accumulate_params : (accumulate bits s).params = s.params := by simp [accumulate]
@[simp] theorem accumulate_line0 : (accumulate bits s).line0 = s.line0 := by simp [accumulate]
@[simp] theorem accumulate_line1 : (accumulate bits s).line1 = s.line1 := by simp [accumulate]
@[simp] theorem accumulate_cfgSite : (accumulate bits s).cfgSite = s.cfgSite := by simp [accumulate]
@[simp] theorem accumulate_outValid : (accumulate bits s).outValid = s.outValid := by simp [accumulate]
@[simp] theorem accumulate_out : (accumulate bits s).out = s.out := by simp [accumulate]
@[simp] theorem accumulate_inputs : (accumulate bits s).inputs = s.inputs := by simp [accumulate]
@[simp] theorem accumulate_cycle : (accumulate bits s).cycle = s.cycle := by simp [accumulate]
@[simp] theorem accumulate_buf : (accumulate bits s).buf = (appendAll bits s).1.buf := by simp [accumulate]
@[simp] theorem accumulate_count : (accumulate bits s).count = (appendAll bits s).1.count := by simp [accumulate]
theorem accumulate_elapsed :
    (accumulate bits s).elapsed =
      elapsedNext s.params.quietCycles s.elapsed (appendAll bits s).2 (appendAll bits s).1.count := by
  simp [accumulate]

end

/-- Without a bit the cycle only lets time pass. -/
theorem accumulate_nil (s : State) :
    accumulate [] s = s.setElapsed (elapsedNext s.params.quietCycles s.elapsed false s.count) := rfl

/-- One bit with room: stored, the timer restarted. -/
theorem accumulate_single_of_lt {s : State} (v : Bit) (h : s.count.toNat < s.params.maxBits) :
    accumulate [v] s =
      ((s.setBuf (s.buf.write s.count.toNat v)).setCount (s.count + 1#7)).setElapsed 1 := by
  simp [accumulate, appendAll, appendBit_of_lt v h]

/-- One bit without room: as without a bit. -/
theorem accumulate_single_of_full {s : State} (v : Bit) (h : s.params.maxBits ≤ s.count.toNat) :
    accumulate [v] s = accumulate [] s := by
  simp [accumulate, appendAll, appendBit_of_full v h]

/-- Two bits with room for both. -/
theorem accumulate_pair_of_lt {s : State} (v w : Bit) (hlegal : s.params.Legal)
    (h : s.count.toNat + 1 < s.params.maxBits) :
    accumulate [v, w] s =
      ((s.setBuf ((s.buf.write s.count.toNat v).write (s.count.toNat + 1) w)).setCount
        (s.count + 2#7)).setElapsed 1 := by
  have h0 : s.count.toNat < s.params.maxBits := by omega
  have hc := toNat_count_succ hlegal h0
  have h2 : s.count + 1#7 + 1#7 = s.count + 2#7 := by rw [BitVec.add_assoc]; rfl
  simp only [accumulate, appendAll, appendBit_of_lt v h0]
  rw [appendBit_of_lt w (by simpa only [State.setCount_count, State.setCount_params, State.setBuf_params, hc] using h)]
  simp [hc, h2, State.setBuf, State.setCount, State.setElapsed]

/-- Two bits with room for one: the second is dropped. -/
theorem accumulate_pair_of_last {s : State} (v w : Bit) (hlegal : s.params.Legal)
    (h : s.count.toNat + 1 = s.params.maxBits) : accumulate [v, w] s = accumulate [v] s := by
  have h0 : s.count.toNat < s.params.maxBits := by omega
  have hc := toNat_count_succ hlegal h0
  simp only [accumulate, appendAll, appendBit_of_lt v h0]
  rw [appendBit_of_full w (by simp only [State.setCount_count, State.setCount_params, State.setBuf_params, hc]; omega)]
  simp

/-- Two bits without room: as without a bit. -/
theorem accumulate_pair_of_full {s : State} (v w : Bit) (h : s.params.maxBits ≤ s.count.toNat) :
    accumulate [v, w] s = accumulate [] s := by
  simp [accumulate, appendAll, appendBit_of_full v h, appendBit_of_full w h]

/-- A full buffer of a legal instance is not empty. -/
theorem count_ne_zero_of_full {s : State} (hlegal : s.params.Legal) (h : s.params.maxBits ≤ s.count.toNat) :
    s.count ≠ 0#7 := by
  intro h0
  rw [h0] at h
  have := hlegal.1.1
  simp at h
  omega

/-! ## The line front ends -/

@[simp] theorem LineFront.shift_prev (n : Nat) (d : Bit) (l : LineFront) : (l.shift n d).prev = l.level n := rfl

@[simp] theorem LineFront.shift_stages (n : Nat) (d : Bit) (l : LineFront) :
    (l.shift n d).stages = (d :: l.stages).take n := rfl

/-- A shift keeps the chain's length. -/
theorem LineFront.shift_length {n : Nat} (d : Bit) {l : LineFront} (h : l.stages.length = n) :
    (l.shift n d).stages.length = n := by
  simp [h]

@[simp] theorem LineFront.afterReset_length (n : Nat) : (LineFront.afterReset n).stages.length = n := by
  simp [LineFront.afterReset]

@[simp] theorem LineFront.feed_nil (n : Nat) (l : LineFront) : l.feed n [] = l := rfl

@[simp] theorem LineFront.feed_cons (n : Nat) (d : Bit) (ds : List Bit) (l : LineFront) :
    l.feed n (d :: ds) = (l.shift n d).feed n ds := rfl

theorem LineFront.feed_append (n : Nat) (ds es : List Bit) (l : LineFront) :
    l.feed n (ds ++ es) = (l.feed n ds).feed n es := by
  simp [LineFront.feed]

/-! ## Reset and the end of a cycle -/

section
variable (site : Bit) (s : State)

@[simp] theorem resetAll_params : (resetAll site s).params = s.params := rfl
@[simp] theorem resetAll_line0 : (resetAll site s).line0 = LineFront.afterReset s.params.syncStages := rfl
@[simp] theorem resetAll_line1 : (resetAll site s).line1 = LineFront.afterReset s.params.syncStages := rfl
@[simp] theorem resetAll_buf : (resetAll site s).buf = s.buf := rfl
@[simp] theorem resetAll_count : (resetAll site s).count = 0#7 := rfl
@[simp] theorem resetAll_elapsed : (resetAll site s).elapsed = 0 := rfl
@[simp] theorem resetAll_cfgSite : (resetAll site s).cfgSite = site := rfl
@[simp] theorem resetAll_outValid : (resetAll site s).outValid = false := rfl
@[simp] theorem resetAll_out : (resetAll site s).out = Result.zero := rfl
@[simp] theorem resetAll_inputs : (resetAll site s).inputs = s.inputs := rfl
@[simp] theorem resetAll_cycle : (resetAll site s).cycle = s.cycle := rfl

end

theorem endCycle_of_rst {s : State} (t : State) (h : s.rst = true) : endCycle s t = t.tick := by
  simp [endCycle, h]

theorem endCycle_of_not_rst {s : State} (t : State) (h : s.rst = false) :
    endCycle s t = (t.setLines (s.line0.shift s.params.syncStages s.sample0)
      (s.line1.shift s.params.syncStages s.sample1)).tick := by
  simp [endCycle, h]

section
variable (s t : State)

@[simp] theorem endCycle_params : (endCycle s t).params = t.params := by unfold endCycle; split <;> rfl
@[simp] theorem endCycle_buf : (endCycle s t).buf = t.buf := by unfold endCycle; split <;> rfl
@[simp] theorem endCycle_count : (endCycle s t).count = t.count := by unfold endCycle; split <;> rfl
@[simp] theorem endCycle_elapsed : (endCycle s t).elapsed = t.elapsed := by unfold endCycle; split <;> rfl
@[simp] theorem endCycle_cfgSite : (endCycle s t).cfgSite = t.cfgSite := by unfold endCycle; split <;> rfl
@[simp] theorem endCycle_outValid : (endCycle s t).outValid = t.outValid := by unfold endCycle; split <;> rfl
@[simp] theorem endCycle_out : (endCycle s t).out = t.out := by unfold endCycle; split <;> rfl
@[simp] theorem endCycle_inputs : (endCycle s t).inputs = t.inputs.tail := by unfold endCycle; split <;> rfl
@[simp] theorem endCycle_cycle : (endCycle s t).cycle = t.cycle + 1 := by unfold endCycle; split <;> rfl

end

end Sys2Proof.Machine
end

