-- ==== Sys2Proof/Laws/Flags.lean ====
section
/-! SUPPORT. The comparator, the words that select operations, and the phase, as facts about the registers. -/

namespace Sys2Proof.Machine

theorem State.fe_eq_true_iff {s : State} : s.fe = true ↔ s.count ≠ 0#7 ∧ s.params.quietCycles ≤ s.elapsed := by
  simp [State.fe]

theorem State.fe_eq_false_iff {s : State} : s.fe = false ↔ s.count = 0#7 ∨ s.elapsed < s.params.quietCycles := by
  rw [← Bool.not_eq_true, State.fe_eq_true_iff]
  by_cases h : s.count = 0#7 <;> simp [h]

/-- The execute word's bits name the operation (R73). -/
theorem decodeExecute_executeWord (rst fe e1 e0 : Bit) :
    decodeExecute (executeWord rst fe e1 e0) =
      if rst then .reset
      else
        match fe, e1, e0 with
        | false, false, false => .nop
        | false, false, true => .rec0
        | false, true, false => .rec1
        | false, true, true => .rec01
        | true, false, false => .fend
        | true, false, true => .fendRec0
        | true, true, false => .fendRec1
        | true, true, true => .fendRec01 := by
  cases rst <;> cases fe <;> cases e1 <;> cases e0 <;> rfl

/-- The selector key's fields are the mode and the count (R74). -/
theorem selectorKey_fields (site : Bit) (n : Count) :
    (selectorKey site n).getLsbD 7 = site ∧ (selectorKey site n).extractLsb' 0 7 = n := by
  constructor
  · rw [selectorKey, BitVec.getLsbD_append]
    simp
  · apply BitVec.eq_of_getLsbD_eq
    intro i hi
    rw [BitVec.getLsbD_extractLsb', selectorKey, BitVec.getLsbD_append]
    simp [hi]

/-- Which decode rule a key selects (R75). -/
theorem decodeSelect_selectorKey (site : Bit) (n : Count) :
    decodeSelect (selectorKey site n) =
      if n = 26#7 then (if site then .decW26s else .decW26n)
      else if n = 35#7 then .decW35
      else if n = 37#7 then .decW37
      else if n = 32#7 then .decW32
      else .decUnk := by
  obtain ⟨h1, h2⟩ := selectorKey_fields site n
  simp only [decodeSelect, h1, h2]

end Sys2Proof.Machine
end

