-- ==== Sys2Proof/Laws/Operands.lean ====
section
/-! SUPPORT. The field extraction, bit by bit, and the decode action. -/

namespace Sys2Proof.Machine

@[simp] theorem field_self (m : Memory) (lo : Nat) : field m lo lo = 0 := by simp [field]

/-- One more index on the right shifts the field left and takes that cell as its least significant bit. -/
theorem field_succ (m : Memory) {lo hi : Nat} (h : lo ≤ hi) :
    field m lo (hi + 1) = 2 * field m lo hi + (m.read hi).toNat := by
  unfold field
  rw [show hi + 1 - lo = (hi - lo) + 1 by omega, List.range'_concat, List.foldl_append]
  simp only [List.foldl_cons, List.foldl_nil, Nat.one_mul]
  rw [show lo + (hi - lo) = hi by omega]
  generalize (List.foldl _ 0 (List.range' lo (hi - lo))) = acc
  have : (m.read hi).toNat < 2 := by cases m.read hi <;> decide
  rw [← Nat.shiftLeft_add_eq_or_of_lt (i := 1) (by simpa using this), Nat.shiftLeft_eq]
  omega

/-- A field of `hi - lo` cells is a number of that many bits. -/
theorem field_lt (m : Memory) {lo hi : Nat} (h : lo ≤ hi) : field m lo hi < 2 ^ (hi - lo) := by
  induction hi, h using Nat.le_induction with
  | base => simp
  | succ hi h ih =>
    rw [field_succ m h, show hi + 1 - lo = (hi - lo) + 1 by omega, Nat.pow_succ]
    have : (m.read hi).toNat < 2 := by cases m.read hi <;> decide
    omega

/-- Bit `j` of a field is the cell `j` places before its last one: the lowest index is the most significant bit. -/
theorem field_testBit (m : Memory) {lo hi j : Nat} (hj : j < hi - lo) :
    (field m lo hi).testBit j = m.read (hi - 1 - j) := by
  have h : lo ≤ hi := by omega
  induction hi, h using Nat.le_induction generalizing j with
  | base => omega
  | succ hi h ih =>
    rw [field_succ m h]
    cases j with
    | zero =>
      rw [show hi + 1 - 1 - 0 = hi by omega, Nat.testBit_zero]
      cases m.read hi <;> simp
    | succ j =>
      rw [Nat.testBit_succ, show (2 * field m lo hi + (m.read hi).toNat) / 2 = field m lo hi by
        cases m.read hi <;> simp; omega, ih (by omega)]
      congr 1
      omega

/-- A field depends on the cells of its range only. -/
theorem field_congr {m m' : Memory} {lo hi : Nat} (h : ∀ i, lo ≤ i → i < hi → m.read i = m'.read i) :
    field m lo hi = field m' lo hi := by
  rcases Nat.le_total lo hi with hle | hle
  · induction hi, hle using Nat.le_induction with
    | base => simp
    | succ hi hle ih =>
      rw [field_succ m hle, field_succ m' hle, ih (fun i h1 h2 => h i h1 (by omega)), h hi hle (by omega)]
  · simp [field, Nat.sub_eq_zero_of_le hle]

/-- The decode action answers a next state exactly when its operand cells exist, and then loads the result registers. -/
theorem loadDecoded_eq_next_iff {len : Nat} {r : Result} {s t : State} :
    loadDecoded len r s = .next t ↔ len ≤ s.params.maxBits ∧ s.setOut r = t := by
  unfold loadDecoded
  split <;> simp_all

theorem loadDecoded_of_le {len : Nat} (r : Result) {s : State} (h : len ≤ s.params.maxBits) :
    loadDecoded len r s = .next (s.setOut r) := if_pos h

/-- A frame inside the buffer has all its operand cells. -/
theorem operandCells_le (n : Count) : operandCells n ≤ n.toNat := by
  unfold operandCells
  split <;> omega

/-- The one case split of the decoder: the length and, for 26, the mode. -/
theorem decodeResult_cases (m : Memory) (n : Count) (site : Bit) :
    (n = 26#7 ∧ site = false ∧ decodeResult m n site = resultW26n m) ∨
    (n = 26#7 ∧ site = true ∧ decodeResult m n site = resultW26s m) ∨
    (n = 35#7 ∧ decodeResult m n site = resultW35 m) ∨
    (n = 37#7 ∧ decodeResult m n site = resultW37 m) ∨
    (n = 32#7 ∧ decodeResult m n site = resultW32 m) ∨
    ((n ≠ 26#7 ∧ n ≠ 35#7 ∧ n ≠ 37#7 ∧ n ≠ 32#7) ∧ decodeResult m n site = resultUnk n) := by
  by_cases h26 : n = 26#7
  · subst h26
    cases site
    · exact .inl ⟨rfl, rfl, rfl⟩
    · exact .inr (.inl ⟨rfl, rfl, rfl⟩)
  · by_cases h35 : n = 35#7
    · subst h35; exact .inr (.inr (.inl ⟨rfl, by simp [decodeResult]⟩))
    · by_cases h37 : n = 37#7
      · subst h37; exact .inr (.inr (.inr (.inl ⟨rfl, by simp [decodeResult]⟩)))
      · by_cases h32 : n = 32#7
        · subst h32; exact .inr (.inr (.inr (.inr (.inl ⟨rfl, by simp [decodeResult]⟩))))
        · exact .inr (.inr (.inr (.inr (.inr ⟨⟨h26, h35, h37, h32⟩, by simp [decodeResult, h26, h35, h37, h32]⟩))))

end Sys2Proof.Machine
end

