-- ==== Sys2Proof/Laws/Meanings.lean ====
section
/-! SUPPORT. Every operation's next state, once per family, and the inversion of `exec`, `step` and `coreCycle`. -/

namespace Sys2Proof.Machine

@[simp] theorem clearFrame_params (s : State) : (clearFrame s).params = s.params := rfl
@[simp] theorem clearFrame_line0 (s : State) : (clearFrame s).line0 = s.line0 := rfl
@[simp] theorem clearFrame_line1 (s : State) : (clearFrame s).line1 = s.line1 := rfl
@[simp] theorem clearFrame_buf (s : State) : (clearFrame s).buf = s.buf := rfl
@[simp] theorem clearFrame_count (s : State) : (clearFrame s).count = 0#7 := rfl
@[simp] theorem clearFrame_elapsed (s : State) : (clearFrame s).elapsed = 0 := rfl
@[simp] theorem clearFrame_cfgSite (s : State) : (clearFrame s).cfgSite = s.cfgSite := rfl
@[simp] theorem clearFrame_outValid (s : State) : (clearFrame s).outValid = s.outValid := rfl
@[simp] theorem clearFrame_out (s : State) : (clearFrame s).out = s.out := rfl
@[simp] theorem clearFrame_inputs (s : State) : (clearFrame s).inputs = s.inputs := rfl
@[simp] theorem clearFrame_cycle (s : State) : (clearFrame s).cycle = s.cycle := rfl

/-- The state a frame-end cycle's appends start from: the result loaded, the frame cleared, `out_valid` 1 (R136, R137). -/
def frameClosed (s : State) : State :=
  (clearFrame (s.setOut (decodeResult s.buf s.count s.cfgSite))).setOutValid true

section
variable (s : State)

@[simp] theorem frameClosed_params : (frameClosed s).params = s.params := rfl
@[simp] theorem frameClosed_line0 : (frameClosed s).line0 = s.line0 := rfl
@[simp] theorem frameClosed_line1 : (frameClosed s).line1 = s.line1 := rfl
@[simp] theorem frameClosed_buf : (frameClosed s).buf = s.buf := rfl
@[simp] theorem frameClosed_count : (frameClosed s).count = 0#7 := rfl
@[simp] theorem frameClosed_elapsed : (frameClosed s).elapsed = 0 := rfl
@[simp] theorem frameClosed_cfgSite : (frameClosed s).cfgSite = s.cfgSite := rfl
@[simp] theorem frameClosed_outValid : (frameClosed s).outValid = true := rfl
@[simp] theorem frameClosed_out : (frameClosed s).out = decodeResult s.buf s.count s.cfgSite := rfl
@[simp] theorem frameClosed_inputs : (frameClosed s).inputs = s.inputs := rfl
@[simp] theorem frameClosed_cycle : (frameClosed s).cycle = s.cycle := rfl

end

/-- A cycle without frame end answers a next state exactly on a legal instance. -/
theorem captureCycle_eq_next_iff {bits : List Bit} {s t : State} :
    captureCycle bits s = .next t ↔ s.params.Legal ∧ accumulate bits (s.setOutValid false) = t := by
  simp [captureCycle, configured_eq_next_iff]

/-- A frame-end cycle answers a next state exactly on a legal instance whose buffer holds the decoded frame. -/
theorem frameEndCycle_eq_next_iff {bits : List Bit} {s t : State} :
    frameEndCycle bits s = .next t ↔
      s.params.Legal ∧ operandCells s.count ≤ s.params.maxBits ∧ accumulate bits (frameClosed s) = t := by
  simp only [frameEndCycle, configured_eq_next_iff, onNext_eq_next_iff, frameEnd, decodeFrame,
    loadDecoded_eq_next_iff, frameClosed]
  constructor
  · rintro ⟨hl, u, ⟨v, ⟨h1, rfl⟩, rfl⟩, rfl⟩
    exact ⟨hl, h1, rfl⟩
  · rintro ⟨hl, h1, rfl⟩
    exact ⟨hl, _, ⟨_, ⟨h1, rfl⟩, rfl⟩, rfl⟩

/-- A cycle without frame end completes on a legal instance. -/
theorem captureCycle_of_legal (bits : List Bit) {s : State} (h : s.params.Legal) :
    captureCycle bits s = .next (accumulate bits (s.setOutValid false)) :=
  captureCycle_eq_next_iff.mpr ⟨h, rfl⟩

/-- A frame-end cycle completes on a legal instance whose frame is inside the buffer. -/
theorem frameEndCycle_of_legal (bits : List Bit) {s : State} (h : s.params.Legal)
    (hcount : s.count.toNat ≤ s.params.maxBits) :
    frameEndCycle bits s = .next (accumulate bits (frameClosed s)) :=
  frameEndCycle_eq_next_iff.mpr ⟨h, (operandCells_le _).trans hcount, rfl⟩

/-- Everything an operation can do when it answers a next state: a cycle without frame end, a cycle with one, a reset, or the
load of the result registers. -/
theorem exec_cases {i : Instr} {s t : State} (h : exec i s = .next t) :
    s.params.Legal ∧
    ((∃ e1 e0, i = decodeExecute (executeWord false false e1 e0) ∧
        t = accumulate (eventBits e1 e0) (s.setOutValid false)) ∨
     (∃ e1 e0, i = decodeExecute (executeWord false true e1 e0) ∧ operandCells s.count ≤ s.params.maxBits ∧
        t = accumulate (eventBits e1 e0) (frameClosed s)) ∨
     (i = .reset ∧ t = resetAll s.siteMode s) ∨
     (∃ site n, i = decodeSelect (selectorKey site n) ∧ ∃ r, t = s.setOut r)) := by
  cases i with
  | nop => exact (captureCycle_eq_next_iff.mp h).imp id fun e => .inl ⟨false, false, rfl, e.symm⟩
  | rec0 => exact (captureCycle_eq_next_iff.mp h).imp id fun e => .inl ⟨false, true, rfl, e.symm⟩
  | rec1 => exact (captureCycle_eq_next_iff.mp h).imp id fun e => .inl ⟨true, false, rfl, e.symm⟩
  | rec01 => exact (captureCycle_eq_next_iff.mp h).imp id fun e => .inl ⟨true, true, rfl, e.symm⟩
  | fend =>
    exact (frameEndCycle_eq_next_iff.mp h).imp id fun ⟨e1, e2⟩ => .inr (.inl ⟨false, false, rfl, e1, e2.symm⟩)
  | fendRec0 =>
    exact (frameEndCycle_eq_next_iff.mp h).imp id fun ⟨e1, e2⟩ => .inr (.inl ⟨false, true, rfl, e1, e2.symm⟩)
  | fendRec1 =>
    exact (frameEndCycle_eq_next_iff.mp h).imp id fun ⟨e1, e2⟩ => .inr (.inl ⟨true, false, rfl, e1, e2.symm⟩)
  | fendRec01 =>
    exact (frameEndCycle_eq_next_iff.mp h).imp id fun ⟨e1, e2⟩ => .inr (.inl ⟨true, true, rfl, e1, e2.symm⟩)
  | reset =>
    obtain ⟨hl, e⟩ := configured_eq_next_iff.mp h
    exact ⟨hl, .inr (.inr (.inl ⟨rfl, by simpa using e.symm⟩))⟩
  | decW26n =>
    obtain ⟨hl, e⟩ := configured_eq_next_iff.mp h
    exact ⟨hl, .inr (.inr (.inr ⟨false, 26, rfl, _, (loadDecoded_eq_next_iff.mp e).2.symm⟩))⟩
  | decW26s =>
    obtain ⟨hl, e⟩ := configured_eq_next_iff.mp h
    exact ⟨hl, .inr (.inr (.inr ⟨true, 26, rfl, _, (loadDecoded_eq_next_iff.mp e).2.symm⟩))⟩
  | decW35 =>
    obtain ⟨hl, e⟩ := configured_eq_next_iff.mp h
    exact ⟨hl, .inr (.inr (.inr ⟨false, 35, rfl, _, (loadDecoded_eq_next_iff.mp e).2.symm⟩))⟩
  | decW37 =>
    obtain ⟨hl, e⟩ := configured_eq_next_iff.mp h
    exact ⟨hl, .inr (.inr (.inr ⟨false, 37, rfl, _, (loadDecoded_eq_next_iff.mp e).2.symm⟩))⟩
  | decW32 =>
    obtain ⟨hl, e⟩ := configured_eq_next_iff.mp h
    exact ⟨hl, .inr (.inr (.inr ⟨false, 32, rfl, _, (loadDecoded_eq_next_iff.mp e).2.symm⟩))⟩
  | decUnk =>
    obtain ⟨hl, e⟩ := configured_eq_next_iff.mp h
    exact ⟨hl, .inr (.inr (.inr ⟨false, 1, rfl, _, (loadDecoded_eq_next_iff.mp e).2.symm⟩))⟩

/-- A cycle's operation, from the bits of its execute word. -/
theorem exec_decodeExecute (rst fe e1 e0 : Bit) (s : State) :
    exec (decodeExecute (executeWord rst fe e1 e0)) s =
      if rst then configured s (.next (resetAll s.siteMode s))
      else if fe then frameEndCycle (eventBits e1 e0) s
      else captureCycle (eventBits e1 e0) s := by
  cases rst <;> cases fe <;> cases e1 <;> cases e0 <;> rfl

/-- A step is its operation and the end of the cycle, when `rst` is synchronous. -/
theorem step_eq_next_iff {s t : State} :
    step s = .next t ↔ s.rstSynchronous = true ∧ ∃ u, exec s.operation s = .next u ∧ endCycle s u = t := by
  unfold step
  split <;> simp_all [onNext_eq_next_iff]

/-- In a cycle with `rst = 0`, on a legal instance whose frame is inside the buffer, a step completes: the cycle's bits are
accumulated after the frame end, if there is one, and the line front ends shift. -/
theorem step_of_rst_low {s : State} (h : s.params.Legal) (hcount : s.count.toNat ≤ s.params.maxBits)
    (hrst : s.pins.rst = .low) :
    step s = .next (endCycle s
      (accumulate (eventBits s.e1 s.e0) (if s.fe then frameClosed s else s.setOutValid false))) := by
  have h1 : s.rst = false := by simp [State.rst, hrst]
  refine step_eq_next_iff.mpr ⟨by simp [State.rstSynchronous, hrst], _, ?_, rfl⟩
  simp only [State.operation, State.xw, decode, h1, exec_decodeExecute]
  cases s.fe
  · simpa using captureCycle_of_legal _ h
  · simpa using frameEndCycle_of_legal _ h hcount

/-- In a cycle with `rst = 1` a step on a legal instance is a reset. -/
theorem step_of_rst_high {s : State} (h : s.params.Legal) (hrst : s.pins.rst = .high) :
    step s = .next (resetAll s.siteMode s).tick := by
  have h1 : s.rst = true := by simp [State.rst, hrst]
  refine step_eq_next_iff.mpr ⟨by simp [State.rstSynchronous, hrst], resetAll s.siteMode s, ?_, endCycle_of_rst _ h1⟩
  simpa [State.operation, State.xw, decode, h1, exec_decodeExecute] using configured_of_legal _ h

/-- A core-level cycle is its operation on the presented pins, with the cycle then used up. -/
theorem coreCycle_eq_next_iff {c : CoreInput} {s t : State} :
    coreCycle c s = .next t ↔
      ∃ u, exec (decode (.execute (executeWord c.rst s.fe c.e1 c.e0))) (s.present c.pins) = .next u ∧ u.tick = t := by
  simp [coreCycle, onNext_eq_next_iff]

/-- A core-level cycle with `rst = 0` completes on a legal instance whose frame is inside the buffer: the same accumulation,
without the line front ends. -/
theorem coreCycle_of_rst_low {c : CoreInput} {s : State} (h : s.params.Legal)
    (hcount : s.count.toNat ≤ s.params.maxBits) (hrst : c.rst = false) :
    coreCycle c s = .next (accumulate (eventBits c.e1 c.e0)
      (if s.fe then frameClosed (s.present c.pins) else (s.present c.pins).setOutValid false)).tick := by
  refine coreCycle_eq_next_iff.mpr ⟨_, ?_, rfl⟩
  simp only [decode, hrst, exec_decodeExecute]
  cases s.fe
  · simpa using captureCycle_of_legal (s := s.present c.pins) _ h
  · simpa using frameEndCycle_of_legal (s := s.present c.pins) _ h hcount

end Sys2Proof.Machine
end

