-- ==== Sys2Proof/Laws/PerInstr.lean ====
section
/-! SUPPORT. A fact about each operation as encoded: its word lies in its own row of the opcode table. -/

namespace Sys2Proof

/-- The encoder's word for the operation is one whose first matching row of R73 or R75 is the operation's own. -/
def Laws.InTable.Statement (i : Instr) : Prop :=
  match encode i with
  | .execute xw => firstMatch executeRows xw = some i
  | .select sk => firstMatch selectorRows sk = some i

theorem Laws.InTable.nop : Laws.InTable.Statement .nop := by rfl
theorem Laws.InTable.rec0 : Laws.InTable.Statement .rec0 := by rfl
theorem Laws.InTable.rec1 : Laws.InTable.Statement .rec1 := by rfl
theorem Laws.InTable.rec01 : Laws.InTable.Statement .rec01 := by rfl
theorem Laws.InTable.fend : Laws.InTable.Statement .fend := by rfl
theorem Laws.InTable.fendRec0 : Laws.InTable.Statement .fendRec0 := by rfl
theorem Laws.InTable.fendRec1 : Laws.InTable.Statement .fendRec1 := by rfl
theorem Laws.InTable.fendRec01 : Laws.InTable.Statement .fendRec01 := by rfl
theorem Laws.InTable.reset : Laws.InTable.Statement .reset := by rfl
theorem Laws.InTable.decW26n : Laws.InTable.Statement .decW26n := by rfl
theorem Laws.InTable.decW26s : Laws.InTable.Statement .decW26s := by rfl
theorem Laws.InTable.decW35 : Laws.InTable.Statement .decW35 := by rfl
theorem Laws.InTable.decW37 : Laws.InTable.Statement .decW37 := by rfl
theorem Laws.InTable.decW32 : Laws.InTable.Statement .decW32 := by rfl
theorem Laws.InTable.decUnk : Laws.InTable.Statement .decUnk := by rfl

end Sys2Proof
end

