-- ==== Sys2Proof/Tests/Slice0.lean ====
section
/-! SUPPORT. Tests on small states: ill-formed parameters, words written out from the spec, single cycles from the vectors of
spec/95_test_vectors.md, and a witness for the hypotheses of each obligation. -/

namespace Sys2Proof.Tests

open Sys2Proof.Machine

/-! ## Helpers -/

/-- The bits of an `n`-digit binary number, most significant first: a frame as the vectors print it. -/
def frame (n w : Nat) : List Bit := (List.range n).map (fun i => w.testBit (n - 1 - i))

/-- A state after reset in which the bits `bs` have been captured and `e` cycles have passed since the last one. -/
def holding (p : Params) (bs : List Bit) (e : Nat) : State :=
  { State.resetFor p false with
    buf := (List.range bs.length).zip bs, count := BitVec.ofNat 7 bs.length, elapsed := e }

/-- A state with a bit count of `n` whose cells are left unwritten. -/
def counting (p : Params) (n : Count) (e : Nat) : State :=
  { State.resetFor p false with count := n, elapsed := e }

/-- This hardware's sizes with `q` for QUIET_CYCLES. -/
def board (q : Nat) : Params := { maxBits := 100, quietCycles := q, syncStages := 2 }

/-- A buffer of `m` cells, the quiet interval 4. -/
def sized (m : Nat) : Params := { maxBits := m, quietCycles := 4, syncStages := 2 }

/-- Pins in a cycle without reset, both lines idle. -/
def idle : Pins := { rst := .low, d1 := .high, d0 := .high, siteMode := .low }

/-- A reset cycle with `site_mode = 1`. -/
def resetting : Pins := { rst := .high, d1 := .high, d0 := .high, siteMode := .high }

/-- A front end in which a falling edge is detected. -/
def fallen : LineFront := { stages := [true, false], prev := true }

/-- The state an answer goes on with. -/
def nextOf : Answer → Option State
  | .next t => some t
  | .fault _ => none
  | .refused _ => none

/-- `count`, `elapsed`, the content of the buffer and `out_valid` after an operation. -/
def capture (o : Answer) : Option (Count × Nat × Memory × Bit) :=
  (nextOf o).map (fun t => (t.count, t.elapsed, t.buf, t.outValid))

/-- `count`, `elapsed`, `out_valid` and the result after an operation. -/
def emitted (o : Answer) : Option (Count × Nat × Bit × Result) :=
  (nextOf o).map (fun t => (t.count, t.elapsed, t.outValid, t.out))

/-- The result registers after a decode rule. -/
def decoded (i : Instr) (bs : List Bit) : Option Result :=
  (nextOf (exec i (holding (board 10) bs 10))).map State.out

/-- The invariants of a concrete state, from facts that evaluate. -/
theorem inv_of_checks (s : State)
    (h : s.params.Legal ∧ s.line0.stages.length = s.params.syncStages ∧ s.line1.stages.length = s.params.syncStages ∧
      Memory.wf s.buf ∧ (∀ c ∈ s.buf, c.1 < s.params.maxBits) ∧ s.count.toNat ≤ s.params.maxBits ∧
      s.elapsed ≤ s.params.quietCycles ∧ (s.count = 0#7 → s.elapsed = 0) ∧ (s.count ≠ 0#7 → 1 ≤ s.elapsed) ∧
      s.out.fmt.toNat ≤ 5 ∧ ∀ i, i < s.count.toNat → (s.buf.lookup i).isSome) : s.Inv :=
  have ⟨h1, h2, h3, h4, h5, h6, h7, h8, h9, h10, h11⟩ := h
  ⟨h1, h2, h3, h4, fun i b m => h5 (i, b) m, h6, h7, h8, h9, h10, h11⟩

/-! ## Ill-formed input is refused -/

theorem test_legal_params : Params.Legal (board 10) ∧ Params.Legal { maxBits := 1, quietCycles := 1, syncStages := 4 } := by
  decide

theorem test_illegal_quiet_cycles : ¬ Params.Legal (board 0) ∧ ¬ Params.Legal (board (2 ^ 32)) := by decide

theorem test_illegal_max_bits : ¬ Params.Legal (sized 0) ∧ ¬ Params.Legal (sized 128) := by decide

theorem test_illegal_sync_stages :
    ¬ Params.Legal { board 10 with syncStages := 1 } ∧ ¬ Params.Legal { board 10 with syncStages := 5 } := by decide

theorem test_table_word_too_wide : tableWordOk 16 0 = false ∧ decodeTableWord 16 0 = none := by decide

theorem test_table_word_too_large : tableWordOk 8 256 = false ∧ decodeTableWord 8 256 = none := by decide

theorem test_operations_wellformed : Instr.wellFormed .nop = true ∧ Instr.wellFormed .decUnk = true := by decide

/-! ## Words written out from R73 and R75 -/

theorem test_decode_capture_words :
    decode (.execute 0b0000) = .nop ∧ decode (.execute 0b0001) = .rec0 ∧ decode (.execute 0b0010) = .rec1 ∧
    decode (.execute 0b0011) = .rec01 := by decide

theorem test_decode_frame_end_words :
    decode (.execute 0b0100) = .fend ∧ decode (.execute 0b0101) = .fendRec0 ∧ decode (.execute 0b0110) = .fendRec1 ∧
    decode (.execute 0b0111) = .fendRec01 := by decide

theorem test_decode_reset_words :
    decode (.execute 0b1000) = .reset ∧ decode (.execute 0b1011) = .reset ∧ decode (.execute 0b1111) = .reset := by decide

theorem test_decode_selector_keys :
    decode (.select 0b00011010) = .decW26n ∧ decode (.select 0b10011010) = .decW26s ∧
    decode (.select 0b00100011) = .decW35 ∧ decode (.select 0b10100101) = .decW37 ∧
    decode (.select 0b00100000) = .decW32 ∧ decode (.select 0b10100000) = .decW32 := by decide

theorem test_decode_unknown_keys :
    decode (.select 0b00000001) = .decUnk ∧ decode (.select 0b00011001) = .decUnk ∧
    decode (.select 0b10011011) = .decUnk ∧ decode (.select 0b01100100) = .decUnk := by decide

theorem test_table_words :
    decodeTableWord 8 0b0110 = some .fendRec1 ∧ decodeTableWord 8 0b1000 = some .reset ∧
    decodeTableWord 8 0x9A = some .decW26s ∧ decodeTableWord 8 0x20 = some .decW32 ∧
    decodeTableWord 0 0 = some .decUnk := by decide

theorem test_result_record_packing :
    Result.record { fmt := 5#3, fc := 0#16, cc := 0#24, uid := 0#32, nbits := 40#7 } = (5#82 <<< 79) ||| 40#82 := by decide

/-- R251: 3 ms of a 1 MHz clock, and a third of a second of a 10 Hz clock, rounded up. -/
theorem test_cycles_of_duration :
    Config.cyclesOfDuration 3 1000 1000000 = 3000 ∧ Config.cyclesOfDuration 1 3 10 = 4 := by decide

/-! ## Capture (vectors DV-CAP) -/

/-- DV-CAP-2. -/
theorem test_nop_time_passes : capture (exec .nop (counting (board 10) 5#7 3)) = some (5#7, 4, [], false) := by decide

/-- DV-CAP-1. -/
theorem test_nop_idle : capture (exec .nop (counting (board 10) 0#7 0)) = some (0#7, 0, [], false) := by decide

/-- DV-CAP-3. -/
theorem test_rec0_first_bit :
    capture (exec .rec0 (counting (board 10) 0#7 0)) = some (1#7, 1, [(0, false)], false) := by decide

/-- DV-CAP-9. -/
theorem test_rec0_refreshes :
    capture (exec .rec0 (counting (board 10) 3#7 8)) = some (4#7, 1, [(3, false)], false) := by decide

/-- DV-CAP-4. -/
theorem test_rec1_overflow : capture (exec .rec1 (counting (board 10) 100#7 2)) = some (100#7, 3, [], false) := by decide

/-- DV-CAP-5. -/
theorem test_rec1_last_cell :
    capture (exec .rec1 (counting (board 10) 99#7 7)) = some (100#7, 1, [(99, true)], false) := by decide

/-- DV-CAP-6. -/
theorem test_rec01_one_cell_left :
    capture (exec .rec01 (counting (board 10) 99#7 7)) = some (100#7, 1, [(99, false)], false) := by decide

/-- DV-CAP-7. -/
theorem test_rec01_order :
    capture (exec .rec01 (counting (board 10) 4#7 9)) = some (6#7, 1, [(4, false), (5, true)], false) := by decide

/-! ## Frame end (vectors DV-FE) -/

/-- DV-FE-1 and DV-FE-3. -/
theorem test_comparator_open :
    (counting (board 1) 0#7 0).fe = false ∧ (counting (board 10) 1#7 9).fe = false := by decide

/-- DV-FE-4 and DV-FE-5. -/
theorem test_comparator_complete :
    (counting (board 10) 1#7 10).fe = true ∧ (counting (board 1) 37#7 1).fe = true := by decide

/-- DV-FE-6. -/
theorem test_fend_unknown :
    emitted (exec .fend (counting (board 10) 40#7 10)) =
      some (0#7, 0, true, { fmt := 5#3, fc := 0#16, cc := 0#24, uid := 0#32, nbits := 40#7 }) := by decide

/-- DV-FE-10. -/
theorem test_fend_full :
    emitted (exec .fend (counting (board 10) 100#7 10)) =
      some (0#7, 0, true, { fmt := 5#3, fc := 0#16, cc := 0#24, uid := 0#32, nbits := 100#7 }) := by decide

/-- DV-FE-7: the new bit overwrites cell 0, the old frame is decoded. -/
theorem test_fendRec0 :
    emitted (exec .fendRec0 (holding (board 10) (frame 26 0b10001001000110100010101100) 10)) =
      some (1#7, 1, true, { fmt := 0#3, fc := 0#16, cc := 0x123456#24, uid := 0#32, nbits := 26#7 }) := by decide

/-- DV-FE-8. -/
theorem test_fendRec1 :
    emitted (exec .fendRec1 (holding (board 10) (frame 32 0b00010010001101000101011001111000) 10)) =
      some (1#7, 1, true, { fmt := 4#3, fc := 0#16, cc := 0#24, uid := 0x78563412#32, nbits := 32#7 }) := by decide

/-- DV-FE-9. -/
theorem test_fendRec01 :
    emitted (exec .fendRec01 (holding (board 10) (frame 35 0b10101010111100000100100011010001011) 10)) =
      some (2#7, 1, true, { fmt := 2#3, fc := 0xABC#16, cc := 0x12345#24, uid := 0#32, nbits := 35#7 }) := by decide

/-- DV-FE-11: MAX_BITS = 1. -/
theorem test_fendRec01_smallest_buffer :
    capture (exec .fendRec01 (holding { sized 1 with quietCycles := 10 } [true] 10)) =
      some (1#7, 1, [(0, false)], true) := by decide

/-! ## Reset (vectors DV-RST) -/

/-- DV-RST-1: the edge of the reset cycle is lost. -/
theorem test_reset_discards_edge :
    (nextOf (step (({ counting (board 10) 17#7 4 with outValid := true, line0 := fallen } : State).present resetting))).map
      (fun t => (t.count, t.elapsed, t.cfgSite, t.line0)) =
    some (0#7, 0, true, { stages := [true, true], prev := true }) := by decide

/-- DV-RST-2: a reset in a frame-end cycle emits nothing. -/
theorem test_reset_discards_frame_end :
    emitted (step ((counting (board 10) 26#7 10).present resetting)) = some (0#7, 0, false, Result.zero) := by decide

/-! ## Decode rules (vectors DV-W26N to DV-UNK) -/

/-- DV-W26N-1. -/
theorem test_decW26n :
    decoded .decW26n (frame 26 0b10001001000110100010101100) =
      some { fmt := 0#3, fc := 0#16, cc := 0x123456#24, uid := 0#32, nbits := 26#7 } := by decide

/-- DV-W26N-5. -/
theorem test_decW26n_ignores_parity :
    decoded .decW26n (frame 26 0b10000000000000000000000001) =
      some { fmt := 0#3, fc := 0#16, cc := 0#24, uid := 0#32, nbits := 26#7 } := by decide

/-- DV-W26S-2. -/
theorem test_decW26s :
    decoded .decW26s (frame 26 0b00111101100110000001110011) =
      some { fmt := 1#3, fc := 0x7B#16, cc := 0x3039#24, uid := 0#32, nbits := 26#7 } := by decide

/-- DV-W26S-3: cell 9 belongs to the card code alone. -/
theorem test_decW26s_no_shared_bit :
    decoded .decW26s (frame 26 0b00000000010000000000000000) =
      some { fmt := 1#3, fc := 0#16, cc := 0x8000#24, uid := 0#32, nbits := 26#7 } := by decide

/-- DV-W35-1. -/
theorem test_decW35 :
    decoded .decW35 (frame 35 0b10101010111100000100100011010001011) =
      some { fmt := 2#3, fc := 0xABC#16, cc := 0x12345#24, uid := 0#32, nbits := 35#7 } := by decide

/-- DV-W35-4. -/
theorem test_decW35_boundary :
    decoded .decW35 (frame 35 0b00000000000000100000000000000000000) =
      some { fmt := 2#3, fc := 0#16, cc := 0x80000#24, uid := 0#32, nbits := 35#7 } := by decide

/-- DV-W37-1. -/
theorem test_decW37 :
    decoded .decW37 (frame 37 0b0100100100011010011010101011110011010) =
      some { fmt := 3#3, fc := 0x1234#16, cc := 0x2ABCD#24, uid := 0#32, nbits := 37#7 } := by decide

/-- DV-W37-2. -/
theorem test_decW37_ignores_cell_17 :
    decoded .decW37 (frame 37 0b0000000000000000010000000000000000000) =
      some { fmt := 3#3, fc := 0#16, cc := 0#24, uid := 0#32, nbits := 37#7 } := by decide

/-- DV-W32-2. -/
theorem test_decW32 :
    decoded .decW32 (frame 32 0b11011110101011011011111011101111) =
      some { fmt := 4#3, fc := 0#16, cc := 0#24, uid := 0xEFBEADDE#32, nbits := 32#7 } := by decide

/-- DV-W32-4. -/
theorem test_decW32_last_bit :
    decoded .decW32 (frame 32 1) =
      some { fmt := 4#3, fc := 0#16, cc := 0#24, uid := 0x01000000#32, nbits := 32#7 } := by decide

/-- DV-UNK-1. -/
theorem test_decUnk :
    decoded .decUnk [true] = some { fmt := 5#3, fc := 0#16, cc := 0#24, uid := 0#32, nbits := 1#7 } := by decide

/-! ## Pin level (vector DV-PIN-1) -/

/-- DV-PIN-1: with samples 1, 0, 0 at the edges ending cycles 0 to 2 the event is in cycle 3, not before, and not in cycle 4. -/
theorem test_event_after_two_cycles :
    ((LineFront.afterReset 2).feed 2 [true, false]).fell 2 = false ∧
    ((LineFront.afterReset 2).feed 2 [true, false, false]).fell 2 = true ∧
    ((LineFront.afterReset 2).feed 2 [true, false, false, true]).fell 2 = false := by decide

/-- The first placed word of a run: from reset, the word of REC1 appends bit 1. -/
theorem test_placed_word_runs :
    capture (step (State.reset.withFetchWord 8 0b0010)) = some (1#7, 1, [(0, true)], false) := by decide

/-! ## Witnesses: for each obligation with hypotheses, a state and operands that meet them, clause by clause -/

/-- A frame of three bits two cycles after the last one, on the hardware's own sizes. -/
def midFrame : State := (holding (board 10) [true, false, true] 2).present idle

/-- A complete frame of three bits: the cycle ends it. -/
def endFrame : State := (holding (board 10) [true, false, true] 10).present idle

theorem test_midFrame_inv : midFrame.Inv := inv_of_checks _ (by decide)

theorem test_endFrame_inv : endFrame.Inv := inv_of_checks _ (by decide)

theorem test_reset_inv : State.reset.Inv := inv_of_checks _ (by decide)

theorem test_witness_DecodeOfEncode : Instr.wellFormed .decW37 = true ∧ Instr.wellFormed .fendRec01 = true := by decide

theorem test_witness_PlacedExecuteWordIsPerformed :
    15 < 16 ∧ State.reset.params.Legal ∧ State.reset.line0.stages.length = State.reset.params.syncStages ∧
    State.reset.line1.stages.length = State.reset.params.syncStages := by decide

theorem test_witness_PlacedKeySelectsItsRule :
    (16 ≤ 0x9A ∧ 0x9A < 256 ∧ 0x9A % 128 ≠ 0) ∧ (16 ≤ 16 ∧ 16 < 256 ∧ 16 % 128 ≠ 0) ∧ 255 % 128 ≠ 0 ∧
    midFrame.params.Legal ∧ midFrame.line0.stages.length = midFrame.params.syncStages ∧
    midFrame.line1.stages.length = midFrame.params.syncStages := by decide

theorem test_witness_StepRunsTheSelectedOperation :
    midFrame.pins.rst ≠ .changing ∧ (midFrame.present resetting).pins.rst ≠ .changing := by decide

theorem test_witness_UnsynchronousResetIsRefused : (midFrame.present { idle with rst := .changing }).pins.rst = .changing := by
  decide

theorem test_witness_IllegalParametersAreRefused :
    ¬ (State.resetFor (sized 128) false).params.Legal ∧ (board 0).quietCycles = 0 ∧ (sized 0).maxBits = 0 ∧
    (1 ≤ (sized 1).maxBits ∧ (sized 1).maxBits < 37 ∧ 1 ≤ (sized 1).quietCycles ∧ (sized 1).quietCycles ≤ 2 ^ 32 - 1 ∧
      2 ≤ (sized 1).syncStages ∧ (sized 1).syncStages ≤ 4) ∧ (sized 36).maxBits < 37 := by decide

theorem test_witness_FieldIsMostSignificantFirst : 5 ≤ 5 ∧ 1 ≤ 9 ∧ 1 < 9 := by decide

theorem test_witness_ParametersNeverChange :
    (∃ t, exec .rec0 midFrame = .next t) ∧ ∃ t, step endFrame = .next t := ⟨⟨_, rfl⟩, ⟨_, rfl⟩⟩

theorem test_witness_ResetCycleResetsEverything :
    (endFrame.present resetting).params.Legal ∧ (endFrame.present resetting).pins.rst = .high := by decide

theorem test_witness_ResetCompletes : endFrame.params.Legal := by decide

theorem test_witness_PowerUpThenReset : (board 10).Legal ∧ resetting.rst = .high := by decide

theorem test_witness_SiteModeLatchedInResetOnly :
    ((midFrame.present resetting).params.Legal ∧ (midFrame.present resetting).pins.rst = .high) ∧
    (midFrame.pins.rst = .low ∧ ∃ t, step midFrame = .next t) ∧
    (Instr.fend ≠ .reset ∧ ∃ t, exec .fend midFrame = .next t) :=
  ⟨by decide, ⟨by decide, ⟨_, rfl⟩⟩, ⟨by decide, ⟨_, rfl⟩⟩⟩

theorem test_witness_ResetMeetsInvariants : (board (2 ^ 32 - 1)).Legal ∧ (sized 127).Legal := by decide

theorem test_witness_EveryStepKeepsInvariants : endFrame.Inv ∧ ∃ t, step endFrame = .next t := ⟨test_endFrame_inv, ⟨_, rfl⟩⟩

theorem test_witness_EveryStepKeepsResultRanges : endFrame.Inv ∧ endFrame.ResultInv ∧ ∃ t, step endFrame = .next t :=
  ⟨test_endFrame_inv, ⟨by decide, by decide, by decide, by decide, by decide, by decide⟩, ⟨_, rfl⟩⟩

theorem test_witness_NothingIsFatal : midFrame.Inv ∧ midFrame.pins.rst ≠ .changing := ⟨test_midFrame_inv, by decide⟩

theorem test_witness_SynchroniserShifts :
    midFrame.Inv ∧ midFrame.pins.rst = .low ∧ 1 ≤ 1 ∧ 1 < midFrame.params.syncStages :=
  ⟨test_midFrame_inv, by decide⟩

theorem test_witness_EventIsDelayedSampleTransition :
    1 ≤ 2 ∧ fallen.stages.length = 2 ∧ [true].length + 1 = 2 := by decide

theorem test_witness_LowLineAtReleaseGivesOneEvent : 1 ≤ 2 ∧ 1 ≤ 4 := by decide

theorem test_witness_AppendStoresOrDrops :
    (counting (board 10) 99#7 1).count.toNat < (counting (board 10) 99#7 1).params.maxBits ∧
    (counting (board 10) 100#7 1).params.maxBits ≤ (counting (board 10) 100#7 1).count.toNat := by decide

theorem test_witness_NopCompletes : (counting (board 10) 100#7 9).params.Legal := by decide

theorem test_witness_RecordOneBitCompletes :
    (counting (board 10) 99#7 1).params.Legal ∧
    (counting (board 10) 99#7 1).count.toNat < (counting (board 10) 99#7 1).params.maxBits ∧
    (counting (board 10) 100#7 1).params.Legal ∧
    (counting (board 10) 100#7 1).params.maxBits ≤ (counting (board 10) 100#7 1).count.toNat := by decide

theorem test_witness_RecordBothBitsCompletes :
    (counting (board 10) 98#7 1).params.Legal ∧
    (counting (board 10) 98#7 1).count.toNat + 1 < (counting (board 10) 98#7 1).params.maxBits ∧
    (counting (board 10) 99#7 1).count.toNat + 1 = (counting (board 10) 99#7 1).params.maxBits ∧
    (counting (board 10) 100#7 1).params.maxBits ≤ (counting (board 10) 100#7 1).count.toNat := by decide

theorem test_witness_CaptureFrame :
    (∃ t, exec .nop midFrame = .next t) ∧ (∃ t, exec .rec1 midFrame = .next t) ∧ (∃ t, exec .rec01 midFrame = .next t) ∧
    (∃ t, exec .rec0 (counting (board 10) 100#7 1) = .next t) ∧
    (counting (board 10) 100#7 1).params.maxBits ≤ (counting (board 10) 100#7 1).count.toNat :=
  ⟨⟨_, rfl⟩, ⟨_, rfl⟩, ⟨_, rfl⟩, ⟨_, rfl⟩, by decide⟩

theorem test_witness_ElapsedUpdate : endFrame.Inv ∧ endFrame.pins.rst = .low := ⟨test_endFrame_inv, by decide⟩

theorem test_witness_EmptyFrameNeverComplete :
    State.reset.params.Legal ∧ State.reset.count = 0#7 ∧ (counting (board 1) 0#7 5).params.Legal ∧
    (counting (board 1) 0#7 5).count = 0#7 := by decide

theorem test_witness_OutValidFollowsFrameEnd :
    (endFrame.Inv ∧ endFrame.pins.rst = .low ∧ endFrame.fe = true) ∧
    (midFrame.Inv ∧ midFrame.pins.rst = .low ∧ midFrame.fe = false) :=
  ⟨⟨test_endFrame_inv, by decide⟩, ⟨test_midFrame_inv, by decide⟩⟩

theorem test_witness_FrameEndCompletes :
    (counting (board 10) 100#7 10).params.Legal ∧
    (counting (board 10) 100#7 10).count.toNat ≤ (counting (board 10) 100#7 10).params.maxBits ∧
    (25#7 ≠ 26#7 ∧ 25#7 ≠ 32#7 ∧ 25#7 ≠ 35#7 ∧ 25#7 ≠ 37#7) ∧ (36#7 ≠ 35#7 ∧ 36#7 ≠ 37#7 ∧ 36#7 ≠ 26#7 ∧ 36#7 ≠ 32#7) := by
  decide

theorem test_witness_FrameEndWithOneBitCompletes :
    (counting (sized 26) 26#7 4).params.Legal ∧
    (counting (sized 26) 26#7 4).count.toNat ≤ (counting (sized 26) 26#7 4).params.maxBits := by decide

theorem test_witness_FrameEndWithBothBitsCompletes :
    ((counting (sized 2) 2#7 4).params.Legal ∧ (2#7).toNat ≤ (sized 2).maxBits ∧ 1 < (sized 2).maxBits) ∧
    ((counting (sized 1) 1#7 4).params.Legal ∧ (1#7).toNat ≤ (sized 1).maxBits ∧ (sized 1).maxBits = 1) := by decide

theorem test_witness_FrameEndFrame :
    (∃ t, exec .fend endFrame = .next t) ∧ (∃ t, exec .fendRec0 endFrame = .next t) ∧
    (∃ t, exec .fendRec01 endFrame = .next t) := ⟨⟨_, rfl⟩, ⟨_, rfl⟩, ⟨_, rfl⟩⟩

/-- Both lines fall in the frame-end cycle of a one-cell buffer: the first bit is stored, the second has no cell. -/
def bothFall : State :=
  ({ holding (sized 1) [true] 4 with line0 := fallen, line1 := fallen } : State).present idle

theorem test_witness_StepAppendsEventsInOrder :
    bothFall.Inv ∧ bothFall.pins.rst = .low ∧ eventBits bothFall.e1 bothFall.e0 = [false, true] ∧ bothFall.fe = true ∧
    0 < bothFall.params.maxBits ∧ bothFall.params.maxBits ≤ 1 :=
  ⟨inv_of_checks _ (by decide), by decide⟩

/-- A bit stored in the cycle before, for each quiet interval. -/
def justStored (q : Nat) : State := holding (board q) [true] 1

theorem test_witness_FrameEndLatency :
    ((justStored 10).params.Legal ∧ (justStored 10).count ≠ 0#7 ∧
      (justStored 10).count.toNat ≤ (justStored 10).params.maxBits ∧ (justStored 10).elapsed = 1) ∧
    ((justStored 1).params.Legal ∧ 0 < (justStored 1).params.quietCycles ∧ (justStored 1).params.quietCycles ≤ 1) ∧
    (9 < (justStored 10).params.quietCycles ∧ (justStored 10).count.toNat < (justStored 10).params.maxBits) ∧
    (justStored 10).params.quietCycles ≤ 10 := by decide

theorem test_witness_LifecycleTransitions :
    (midFrame.Inv ∧ midFrame.pins.rst = .low ∧ midFrame.phase = .capturing) ∧
    (endFrame.Inv ∧ endFrame.pins.rst = .low ∧ endFrame.phase = .quiescing) ∧
    (((State.resetFor (board 10) false).present idle).Inv ∧
      ((State.resetFor (board 10) false).present idle).phase = .idle) ∧
    (((justStored 1).present idle).Inv ∧ ((justStored 1).present idle).phase = .quiescing) :=
  ⟨⟨test_midFrame_inv, by decide⟩, ⟨test_endFrame_inv, by decide⟩, ⟨inv_of_checks _ (by decide), by decide⟩,
    ⟨inv_of_checks _ (by decide), by decide⟩⟩

theorem test_witness_DecodeW26nCompletes :
    (counting (sized 26) 26#7 4).params.Legal ∧ 26 ≤ (counting (sized 26) 26#7 4).params.maxBits := by decide

theorem test_witness_DecodeW26sCompletes :
    (counting (sized 26) 26#7 4).params.Legal ∧ 26 ≤ (counting (sized 26) 26#7 4).params.maxBits := by decide

theorem test_witness_DecodeW35Completes :
    0xA3#8 &&& 0x7F = 0x23 ∧ (counting (sized 35) 35#7 4).params.Legal ∧
    35 ≤ (counting (sized 35) 35#7 4).params.maxBits := by decide

theorem test_witness_DecodeW37Completes :
    0xA5#8 &&& 0x7F = 0x25 ∧ (counting (sized 37) 37#7 4).params.Legal ∧
    37 ≤ (counting (sized 37) 37#7 4).params.maxBits := by decide

theorem test_witness_DecodeW32Completes :
    0xA0#8 &&& 0x7F = 0x20 ∧ (counting (sized 32) 32#7 4).params.Legal ∧
    32 ≤ (counting (sized 32) 32#7 4).params.maxBits := by decide

theorem test_witness_DecodeUnknownCompletes :
    (counting (sized 1) 1#7 4).params.Legal ∧ (27#7 ≠ 26#7 ∧ 27#7 ≠ 32#7 ∧ 27#7 ≠ 35#7 ∧ 27#7 ≠ 37#7) := by decide

theorem test_witness_DecodeBeyondBufferFaults :
    ((counting (sized 25) 25#7 4).params.Legal ∧ (counting (sized 25) 25#7 4).params.maxBits < 26) ∧
    ((counting (sized 34) 34#7 4).params.Legal ∧ (counting (sized 34) 34#7 4).params.maxBits < 35) ∧
    ((counting (sized 36) 36#7 4).params.Legal ∧ (counting (sized 36) 36#7 4).params.maxBits < 37) ∧
    ((counting (sized 31) 31#7 4).params.Legal ∧ (counting (sized 31) 31#7 4).params.maxBits < 32) := by decide

theorem test_witness_DecodeRulesFrame :
    (∃ t, exec .decW26n endFrame = .next t) ∧ ∃ t, exec .decUnk endFrame = .next t := ⟨⟨_, rfl⟩, ⟨_, rfl⟩⟩

theorem test_witness_SelectedRuleIsDecode :
    (counting (sized 37) 37#7 4).params.Legal ∧
    (counting (sized 37) 37#7 4).count.toNat ≤ (counting (sized 37) 37#7 4).params.maxBits := by decide

theorem test_witness_FrameEndRunsSelectedRule :
    (counting (sized 26) 26#7 4).params.Legal ∧
    (counting (sized 26) 26#7 4).count.toNat ≤ (counting (sized 26) 26#7 4).params.maxBits := by decide

theorem test_witness_UnusedFieldsAreZero :
    (decodeResult [] 26#7 false).fmt = 0#3 ∧ (decodeResult [] 26#7 true).fmt = 1#3 ∧
    (decodeResult [] 35#7 true).fmt = 2#3 ∧ (decodeResult [] 37#7 false).fmt = 3#3 ∧
    (decodeResult [] 32#7 false).fmt = 4#3 ∧ (decodeResult [] 27#7 true).fmt = 5#3 :=
  ⟨rfl, rfl, rfl, rfl, rfl, rfl⟩

theorem test_witness_IgnoredBitsHaveNoEffect :
    (∀ i, i < 26 → i ≠ 0 → i ≠ 25 → Memory.read [(0, true)] i = Memory.read [(0, false), (25, true)] i) ∧
    (∀ i, i < 35 → i ≠ 0 → i ≠ 1 → i ≠ 34 → Memory.read [(1, true)] i = Memory.read [(34, true)] i) ∧
    (∀ i, i < 37 → i ≠ 0 → i ≠ 1 → i ≠ 17 → i ≠ 36 → Memory.read [(17, true)] i = Memory.read [(36, true)] i) ∧
    (∀ i, i < 32 → Memory.read [(32, true)] i = Memory.read [] i) ∧
    (33#7 ≠ 26#7 ∧ 33#7 ≠ 35#7 ∧ 33#7 ≠ 37#7 ∧ 33#7 ≠ 32#7) := by
  refine ⟨fun i _ _ _ => ?_, fun i _ _ _ _ => ?_, fun i _ _ _ _ _ => ?_, fun i _ => ?_, by decide⟩
  · simp [Memory.read, Memory.lookup, show ¬ 0 = i by omega, show ¬ 25 = i by omega]
  · simp [Memory.read, Memory.lookup, show ¬ 1 = i by omega, show ¬ 34 = i by omega]
  · simp [Memory.read, Memory.lookup, show ¬ 17 = i by omega, show ¬ 36 = i by omega]
  · simp [Memory.read, Memory.lookup, show ¬ 32 = i by omega]

theorem test_witness_ModeMattersForLength26Only : 25#7 ≠ 26#7 ∧ 27#7 ≠ 26#7 := by decide

theorem test_witness_ConditionsRaised :
    ((counting (board 10) 100#7 1).params.Legal ∧
      (counting (board 10) 100#7 1).count.toNat ≤ (counting (board 10) 100#7 1).params.maxBits) ∧
    ((counting (sized 1) 0#7 0).params.Legal ∧
      (counting (sized 1) 0#7 0).count.toNat ≤ (counting (sized 1) 0#7 0).params.maxBits) := by decide

theorem test_witness_DroppedBitIsNoEdge :
    ((counting (board 10) 100#7 1).params.Legal ∧
      (counting (board 10) 100#7 1).params.maxBits ≤ (counting (board 10) 100#7 1).count.toNat) ∧
    (counting (board 10) 99#7 1).count.toNat + 1 = (counting (board 10) 99#7 1).params.maxBits ∧
    ((counting (sized 1) 1#7 4).params.Legal ∧ (counting (sized 1) 1#7 4).params.maxBits = 1) := by decide

theorem test_witness_FullBufferFrameStillEnds :
    (counting (board 10) 100#7 1).params.Legal ∧
    (counting (board 10) 100#7 1).count.toNat = (counting (board 10) 100#7 1).params.maxBits ∧
    (counting (board 10) 100#7 1).elapsed = 1 ∧
    (∀ c ∈ List.replicate 9 (Stmt.b01).input, c.rst = false) ∧
    (List.replicate 9 (Stmt.b01).input).length < (counting (board 10) 100#7 1).params.quietCycles := by decide

theorem test_witness_PinLevelRefinesCoreLevel : ∃ t, step bothFall = .next t := ⟨_, rfl⟩

theorem test_witness_StaleCellsAreUnobservable :
    endFrame.Inv ∧
    (∀ i, i < endFrame.count.toNat →
      Memory.lookup [(0, true), (1, false), (2, true), (3, true)] i = endFrame.buf.lookup i) ∧
    ∃ t, step endFrame = .next t :=
  ⟨test_endFrame_inv, by decide, ⟨_, rfl⟩⟩

theorem test_witness_WholeFrameIsDecoded :
    (State.resetFor (sized 3) true).params.Legal ∧ (State.resetFor (sized 3) true).count = 0#7 ∧
    (State.resetFor (sized 3) true).elapsed = 0 ∧ [true, false, true] ≠ [] ∧
    [true, false, true].length ≤ (State.resetFor (sized 3) true).params.maxBits ∧
    2 + 2 ≤ (State.resetFor (sized 3) true).params.quietCycles := by decide

end Sys2Proof.Tests
end

/-! The statements on parameters and primitives (spec/00_scope.md): which instances an operation refuses, the weight
of each cell in a field, the byte swap. -/

namespace Sys2Proof.Machine

/-- R7: the guard on the parameters stands before the meaning of every operation. -/
theorem exec_of_not_legal (i : Instr) {s : State} (h : ¬ s.params.Legal) : exec i s = .refused .illegalParameters := by
  cases i <;> exact configured_of_not_legal _ h

/-- R6: the lower bounds that a zero would break. -/
theorem not_legal_of_zero {p : Params} (h : p.quietCycles = 0 ∨ p.maxBits = 0) : ¬ p.Legal := by
  rintro ⟨⟨hbits, -⟩, ⟨hquiet, -⟩, -⟩
  omega

/-- R11: a field as a weighted sum. Each further cell doubles the weights of the cells before it. -/
theorem field_eq_sum (m : Memory) {lo hi : Nat} (h : lo ≤ hi) :
    field m lo hi = ∑ i ∈ Finset.Ico lo hi, (m.read i).toNat * 2 ^ (hi - 1 - i) := by
  induction hi, h using Nat.le_induction with
  | base => simp
  | succ hi h ih =>
    have hdouble : ∀ i ∈ Finset.Ico lo hi,
        2 * ((m.read i).toNat * 2 ^ (hi - 1 - i)) = (m.read i).toNat * 2 ^ (hi + 1 - 1 - i) := by
      intro i hmem
      have hlt : i < hi := (Finset.mem_Ico.mp hmem).2
      rw [show hi + 1 - 1 - i = (hi - 1 - i) + 1 by omega, pow_succ]
      ring
    calc field m lo (hi + 1)
      _ = 2 * field m lo hi + (m.read hi).toNat := field_succ m h
      _ = ∑ i ∈ Finset.Ico lo hi, (m.read i).toNat * 2 ^ (hi + 1 - 1 - i) + (m.read hi).toNat := by
        rw [ih, Finset.mul_sum, Finset.sum_congr rfl hdouble]
      _ = ∑ i ∈ Finset.Ico lo (hi + 1), (m.read i).toNat * 2 ^ (hi + 1 - 1 - i) := by
        rw [Finset.sum_Ico_succ_top h]
        simp

/-- R12, bit by bit: the byte index is mirrored, the place within the byte is kept. -/
theorem bswap32_getLsbD (a : BitVec 32) {k j : Nat} (hk : k < 4) (hj : j < 8) :
    (bswap32 a).getLsbD (8 * k + j) = a.getLsbD (8 * (3 - k) + j) := by
  simp only [bswap32, BitVec.getLsbD_append, BitVec.getLsbD_extractLsb']
  interval_cases k <;> grind

/-- R12, byte by byte. -/
theorem bswap32_byte (a : BitVec 32) {k : Nat} (hk : k < 4) :
    (bswap32 a).extractLsb' (8 * k) 8 = a.extractLsb' (8 * (3 - k)) 8 := by
  apply BitVec.eq_of_getLsbD_eq
  intro j hj
  simp only [BitVec.getLsbD_extractLsb', bswap32_getLsbD a hk hj]

/-- Settles O10: the guard refuses, the two zeros break a lower bound, and the bound on MAX_BITS is 127, not 37. -/
theorem illegalParametersAreRefused : Obligations.IllegalParametersAreRefused := by
  refine ⟨fun i s h => exec_of_not_legal i h, fun p h => not_legal_of_zero h, ?_⟩
  intro p hbits hshort hquiet hquiet' hsync hsync'
  exact ⟨⟨hbits, by omega⟩, ⟨hquiet, hquiet'⟩, ⟨hsync, hsync'⟩⟩

/-- Settles O11: the weighted sum, and the two end cells as bits of the field. -/
theorem fieldIsMostSignificantFirst : Obligations.FieldIsMostSignificantFirst := by
  intro m lo hi h
  refine ⟨field_eq_sum m h, fun hlt => ⟨?_, ?_⟩⟩
  · rw [field_testBit m (by omega), show hi - 1 - (hi - lo - 1) = lo by omega]
  · exact field_testBit m (by omega)

/-- Settles O12: the mirrored byte, for each of the four. -/
theorem byteSwapReversesBytes : Obligations.ByteSwapReversesBytes := fun a =>
  ⟨bswap32_byte a (k := 3) (by decide), bswap32_byte a (k := 2) (by decide), bswap32_byte a (k := 1) (by decide),
    bswap32_byte a (k := 0) (by decide)⟩

end Sys2Proof.Machine

/-! The statements on the registers (spec/10_state.md): the reset value of every piece of state, and when the latched
site mode changes. -/

namespace Sys2Proof.Machine

/-- R72: with `rst = 0` the bit of RESET in the execute word is 0. -/
theorem operation_ne_reset_of_rst_low {s : State} (h : s.pins.rst = .low) : s.operation ≠ .reset := by
  have hrst : s.rst = false := by simp [State.rst, h]
  rw [State.operation, decode, State.xw, hrst, decodeExecute_executeWord]
  cases s.fe <;> cases s.e1 <;> cases s.e0 <;> decide

/-- R31: only RESET writes `cfg_site`; appends, frame end and decode rules leave it. -/
theorem exec_keeps_cfgSite {i : Instr} {s t : State} (hi : i ≠ .reset) (h : exec i s = .next t) :
    t.cfgSite = s.cfgSite := by
  obtain ⟨-, ⟨_, _, -, rfl⟩ | ⟨_, _, -, -, rfl⟩ | ⟨hreset, -⟩ | ⟨_, _, -, _, rfl⟩⟩ := exec_cases h
  · simp
  · simp
  · exact absurd hreset hi
  · simp

/-- R31: the operation of a cycle with `rst = 0` is not RESET, and the end of the cycle does not write `cfg_site`. -/
theorem step_of_rst_low_keeps_cfgSite {s t : State} (hrst : s.pins.rst = .low) (h : step s = .next t) :
    t.cfgSite = s.cfgSite := by
  obtain ⟨-, u, hu, rfl⟩ := step_eq_next_iff.mp h
  rw [endCycle_cfgSite, exec_keeps_cfgSite (operation_ne_reset_of_rst_low hrst) hu]

/-- Settles O17: a reset cycle latches, any other keeps, and so does every operation but RESET. -/
theorem siteModeLatchedInResetOnly : Obligations.SiteModeLatchedInResetOnly :=
  ⟨fun _ hlegal hrst => ⟨_, step_of_rst_high hlegal hrst, rfl⟩, fun _ _ => step_of_rst_low_keeps_cfgSite,
    fun _ _ _ => exec_keeps_cfgSite, fun _ _ => rfl⟩

/-- Settles O14: with `rst = 1` the step is RESET alone, as no front end shifts (R100), so each row of R40 is what
`resetAll` writes. -/
theorem resetCycleResetsEverything : Obligations.ResetCycleResetsEverything := fun _ hlegal hrst =>
  ⟨_, step_of_rst_high hlegal hrst, rfl, rfl, rfl, rfl, rfl, rfl, rfl, rfl, rfl, rfl, rfl, rfl, rfl, rfl⟩

end Sys2Proof.Machine

/-! The statements on the encodings (spec/30_encoding.md): the rows of the execute-word map and the packing of the result
record. -/

namespace Sys2Proof.Machine

/-- R72: four bits make up every execute word. -/
theorem exists_executeWord (xw : BitVec 4) : ∃ rst fe e1 e0, xw = executeWord rst fe e1 e0 := by
  refine ⟨xw.getLsbD 3, xw.getLsbD 2, xw.getLsbD 1, xw.getLsbD 0, BitVec.eq_of_getLsbD_eq fun i hi => ?_⟩
  simp only [executeWord, BitVec.getLsbD_append, BitVec.getLsbD_ofBool]
  interval_cases i <;> simp

/-- R73, the last row: with `rst = 1` the other three bits are don't cares and no row before it matches. -/
theorem executeRows_filter_of_rst_high (fe e1 e0 : Bit) :
    executeRows.filter (fun r => r.covers (executeWord true fe e1 e0)) = [⟨0b1000, 0b1000, .reset⟩] := by
  cases fe <;> cases e1 <;> cases e0 <;> rfl

/-- R73, the rows before the last: with `rst = 0` all four bits are compared, so a word matches its own row alone. -/
theorem executeRows_filter_of_rst_low (fe e1 e0 : Bit) :
    executeRows.filter (fun r => r.covers (executeWord false fe e1 e0)) =
      [⟨executeWord false fe e1 e0, 0b1111, decodeExecute (executeWord false fe e1 e0)⟩] := by
  cases fe <;> cases e1 <;> cases e0 <;> rfl

/-- Settles O1: the rows that cover a word are found by its `rst` bit, which R73 gives priority over the others. -/
theorem executeWordSelectsOneRow : Obligations.ExecuteWordSelectsOneRow := by
  intro xw
  obtain ⟨rst, fe, e1, e0, rfl⟩ := exists_executeWord xw
  cases rst with
  | true =>
    rw [executeRows_filter_of_rst_high, decode, decodeExecute_executeWord]
    rfl
  | false =>
    rw [executeRows_filter_of_rst_low]
    rfl

/-- Settles O9: the fields packed below one are skipped by their widths, and what is left starts with that field. -/
theorem resultRecordPacking : Obligations.ResultRecordPacking := by
  intro r
  unfold Result.record
  refine ⟨?nbits, ?uid, ?cc, ?fc, ?fmt⟩
  case nbits => exact BitVec.extractLsb'_append_eq_right
  case uid => rw [BitVec.extractLsb'_append_eq_of_le (by decide), BitVec.extractLsb'_append_eq_right]
  case cc =>
    iterate 2 rw [BitVec.extractLsb'_append_eq_of_le (by decide)]
    exact BitVec.extractLsb'_append_eq_right
  case fc =>
    iterate 3 rw [BitVec.extractLsb'_append_eq_of_le (by decide)]
    exact BitVec.extractLsb'_append_eq_right
  case fmt =>
    iterate 3 rw [BitVec.extractLsb'_append_eq_of_le (by decide)]
    exact BitVec.extractLsb'_append_eq_left

end Sys2Proof.Machine

/-! The statements on capture (spec/40_capture.md): the shift of the line front ends, the append primitive, and the
operations NOP and REC01. -/

namespace Sys2Proof.Machine

/-! ### The line front ends -/

/-- R100, the first stage. -/
theorem LineFront.shift_stages_zero {n : Nat} (hn : 0 < n) (d : Bit) (l : LineFront) :
    (l.shift n d).stages[0]? = some d := by
  rw [LineFront.shift_stages, List.getElem?_take_of_lt hn, List.getElem?_cons_zero]

/-- R100, the later stages. -/
theorem LineFront.shift_stages_of_pos {n j : Nat} (hj : 1 ≤ j) (hjn : j < n) (d : Bit) (l : LineFront) :
    (l.shift n d).stages[j]? = l.stages[j - 1]? := by
  obtain ⟨i, rfl⟩ := Nat.exists_eq_add_of_le' hj
  rw [LineFront.shift_stages, List.getElem?_take_of_lt hjn, List.getElem?_cons_succ, Nat.add_sub_cancel]

/-- R25: in a chain of `n` stages the synchronised level is the last one; the default of `level` plays no part. -/
theorem LineFront.level_eq_last {n : Nat} (hn : 0 < n) {l : LineFront} (hlen : l.stages.length = n) :
    some (l.level n) = l.stages[n - 1]? := by
  have hlast : n - 1 < l.stages.length := by omega
  simp [LineFront.level, List.getD_eq_getElem?_getD, List.getElem?_eq_getElem hlast]

/-- Settles O22: with `rst = 0` the end of the cycle shifts both front ends, whatever the operation did. -/
theorem synchroniserShifts : Obligations.SynchroniserShifts := by
  intro s hinv hrst
  have hlow : s.rst = false := by simp [State.rst, hrst]
  have hn : 0 < s.params.syncStages := by have := hinv.params_legal.2.2.1; omega
  refine ⟨_, step_of_rst_low hinv.params_legal hinv.count_le hrst, ?_⟩
  rw [endCycle_of_not_rst _ hlow]
  simp only [State.tick_line0, State.tick_line1, State.setLines_line0, State.setLines_line1, LineFront.shift_prev]
  exact ⟨LineFront.shift_stages_zero hn _ _, LineFront.shift_stages_zero hn _ _,
    fun _ hj hjn => ⟨LineFront.shift_stages_of_pos hj hjn _ _, LineFront.shift_stages_of_pos hj hjn _ _⟩,
    LineFront.level_eq_last hn hinv.chain0, LineFront.level_eq_last hn hinv.chain1⟩

/-! ### Appending -/

/-- Settles O25: the two outcomes of the length check (R104). -/
theorem appendStoresOrDrops : Obligations.AppendStoresOrDrops := fun v _ =>
  ⟨fun hroom => appendBit_of_lt v hroom, fun hfull => appendBit_of_full v hfull⟩

/-- R201: the first `m - k` bits of a cycle find room, the others are dropped. -/
theorem droppedBits_eq_drop (m k : Nat) (bits : List Bit) : droppedBits m k bits = bits.drop (m - k) := by
  induction bits generalizing k with
  | nil => simp [droppedBits]
  | cons v vs ih =>
    by_cases hroom : k < m
    · rw [droppedBits, if_pos hroom, ih, show m - k = (m - (k + 1)) + 1 by omega, List.drop_succ_cons]
    · rw [droppedBits, if_neg hroom, ih, show m - k = 0 by omega, List.drop_zero, List.drop_zero]

/-- The conditions of REC01, from the room the buffer has left. -/
theorem conditions_rec01 (s : State) :
    conditions .rec01 s = ([false, true].drop (s.params.maxBits - s.count.toNat)).map Condition.bufferOverflow := by
  rw [conditions, overflows, droppedBits_eq_drop]

/-! ### The operations without frame end -/

/-- R131: in a full buffer no bit is stored and the frame is not empty, so the timer advances. -/
theorem accumulate_nil_of_full {s : State} (hlegal : s.params.Legal) (hfull : s.params.maxBits ≤ s.count.toNat) :
    accumulate [] s = s.setElapsed (min (s.elapsed + 1) s.params.quietCycles) := by
  rw [accumulate_nil, elapsedNext_running _ _ (count_ne_zero_of_full hlegal hfull)]

/-- NOP on a legal instance. -/
theorem exec_nop_of_legal {s : State} (hlegal : s.params.Legal) :
    exec .nop s = .next (accumulate [] (s.setOutValid false)) :=
  captureCycle_of_legal [] hlegal

/-- REC01 on a legal instance: line 0's bit is appended first (R108). -/
theorem exec_rec01_of_legal {s : State} (hlegal : s.params.Legal) :
    exec .rec01 s = .next (accumulate [false, true] (s.setOutValid false)) :=
  captureCycle_of_legal [false, true] hlegal

/-- Settles O26: NOP appends nothing, so of the cycle only the fall of `out_valid` and the elapsed update remain. -/
theorem nopCompletes : Obligations.NopCompletes := by
  refine ⟨rfl, fun s hlegal => ⟨rfl, ?_⟩⟩
  rw [exec_nop_of_legal hlegal, accumulate_nil, elapsedNext_not_appended]
  rfl

/-- Settles O28: the three cases of the room left, two cells or more, one, none. -/
theorem recordBothBitsCompletes : Obligations.RecordBothBitsCompletes := by
  refine ⟨rfl, fun s hlegal => ?_⟩
  rw [exec_rec01_of_legal hlegal, conditions_rec01]
  refine ⟨fun hroom => ⟨?_, ?_⟩, fun hlast => ⟨?_, ?_⟩, fun hfull => ⟨?_, ?_⟩⟩
  · rw [List.drop_of_length_le (by simp only [List.length_cons, List.length_nil]; omega), List.map_nil]
  · rw [accumulate_pair_of_lt (s := s.setOutValid false) _ _ hlegal hroom]
    rfl
  · rw [show s.params.maxBits - s.count.toNat = 1 by omega]
    rfl
  · have hroom : s.count.toNat < s.params.maxBits := by omega
    rw [accumulate_pair_of_last (s := s.setOutValid false) _ _ hlegal hlast,
      accumulate_single_of_lt (s := s.setOutValid false) _ hroom]
    rfl
  · rw [show s.params.maxBits - s.count.toNat = 0 by omega]
    rfl
  · rw [accumulate_pair_of_full (s := s.setOutValid false) _ _ hfull,
      accumulate_nil_of_full (s := s.setOutValid false) hlegal hfull]
    rfl

end Sys2Proof.Machine

/-! The statements on the frame end (spec/41_frame_end.md): the elapsed update, the comparator, the pulse of
`out_valid`, and the four operations with frame end. -/

namespace Sys2Proof.Machine

/-! ### The elapsed update -/

@[simp] theorem eventBits_isEmpty (e1 e0 : Bit) : (eventBits e1 e0).isEmpty = (!e0 && !e1) := by
  cases e1 <;> cases e0 <;> rfl

/-- R131, with `appended` spelled out (an edge, and a free cell) for a cycle whose appends start from `s`. -/
theorem accumulate_eventBits_elapsed (e1 e0 : Bit) (s : State) :
    (accumulate (eventBits e1 e0) s).elapsed =
      if (e0 = true ∨ e1 = true) ∧ s.count.toNat < s.params.maxBits then 1
      else if (accumulate (eventBits e1 e0) s).count = 0#7 then 0
      else min (s.elapsed + 1) s.params.quietCycles := by
  have hstored : (appendAll (eventBits e1 e0) s).2 = true ↔
      (e0 = true ∨ e1 = true) ∧ s.count.toNat < s.params.maxBits := by
    rw [appendAll_stored, eventBits_isEmpty]
    simp
  simp only [accumulate_elapsed, accumulate_count, elapsedNext, hstored]

/-- Settles O30: without a frame end the appends start from `count`; with one they start from an empty buffer, which has
a free cell, so that a frame left empty had no edge. -/
theorem elapsedUpdate : Obligations.ElapsedUpdate := by
  intro s hinv hrst
  have hcell : 0 < s.params.maxBits := hinv.params_legal.1.1
  refine ⟨_, step_of_rst_low hinv.params_legal hinv.count_le hrst, ?_⟩
  rw [endCycle_elapsed, endCycle_count, accumulate_eventBits_elapsed]
  cases s.fe with
  | false => simp
  | true =>
    by_cases hedge : s.e0 = true ∨ s.e1 = true
    · simp [hedge, hcell]
    · obtain ⟨h0, h1⟩ : s.e0 = false ∧ s.e1 = false := by simpa using hedge
      simp [h0, h1, eventBits]

/-! ### The comparator and the pulse -/

/-- R135: the comparator asks for a bit. -/
theorem fe_of_count_zero {s : State} (h : s.count = 0#7) : s.fe = false :=
  State.fe_eq_false_iff.mpr (.inl h)

/-- What every cycle of a core-level run completes with and keeps, holds at its end. -/
theorem runCore_of_invariant {P : State → Prop} {cs : List CoreInput}
    (hstep : ∀ c ∈ cs, ∀ s, P s → ∃ t, coreCycle c s = .next t ∧ P t) {s : State} (hs : P s) :
    ∃ t, runCore cs s = .next t ∧ P t := by
  induction cs generalizing s with
  | nil => exact ⟨s, rfl, hs⟩
  | cons c cs ih =>
    obtain ⟨u, hu, hPu⟩ := hstep c List.mem_cons_self s hs
    obtain ⟨t, ht, hPt⟩ := ih (fun d hd => hstep d (List.mem_cons_of_mem c hd)) hPu
    refine ⟨t, ?_, hPt⟩
    simp only [runCore, hu, ht]

/-- R106 in Idle: a cycle without an edge leaves an empty frame empty. -/
theorem coreCycle_nop_keeps_empty {s : State} (hlegal : s.params.Legal) (hempty : s.count = 0#7) :
    ∃ t, coreCycle Stmt.nop.input s = .next t ∧ t.params.Legal ∧ t.count = 0#7 := by
  refine ⟨_, coreCycle_of_rst_low hlegal (by simp [hempty]) rfl, ?_⟩
  rw [fe_of_count_zero hempty]
  exact ⟨hlegal, hempty⟩

/-- Settles O32: silence keeps the frame empty, so that at its end too the comparator finds no bit. -/
theorem emptyFrameNeverComplete : Obligations.EmptyFrameNeverComplete := by
  intro s n hlegal hempty
  obtain ⟨t, hrun, -, ht⟩ := runCore_of_invariant (cs := List.replicate n Stmt.nop.input)
    (P := fun u => u.params.Legal ∧ u.count = 0#7)
    (fun c hc u hu => List.eq_of_mem_replicate hc ▸ coreCycle_nop_keeps_empty hu.1 hu.2) ⟨hlegal, hempty⟩
  exact ⟨fe_of_count_zero hempty, t, hrun, ht, fe_of_count_zero ht⟩

/-- Settles O33: the appends and the end of the cycle write neither `out_valid` nor the result, so both are as the
cycle's first part left them, with the frame closed or with `out_valid` lowered. -/
theorem outValidFollowsFrameEnd : Obligations.OutValidFollowsFrameEnd := by
  intro s hinv hrst
  refine ⟨_, step_of_rst_low hinv.params_legal hinv.count_le hrst, ?_⟩
  rw [endCycle_outValid, endCycle_out, accumulate_outValid, accumulate_out]
  cases s.fe with
  | false => exact ⟨rfl, nofun, fun _ => rfl⟩
  | true => exact ⟨rfl, fun _ => rfl, nofun⟩

/-- Settles O31: the comparator as defined, and the priority of `rst` in the execute word. -/
theorem frameEndComparator : Obligations.FrameEndComparator :=
  ⟨fun _ => State.fe_eq_true_iff, fun fe e1 e0 => decodeExecute_executeWord true fe e1 e0⟩

/-! ### The operations with frame end -/

/-- R167: of a length with no format of its own only the length is given. -/
theorem decodeResult_of_unknown (m : Memory) (site : Bit) {n : Count} (h26 : n ≠ 26#7) (h32 : n ≠ 32#7)
    (h35 : n ≠ 35#7) (h37 : n ≠ 37#7) : decodeResult m n site = resultUnk n := by
  simp [decodeResult, h26, h32, h35, h37]

/-- Settles O34: FEND appends nothing to the frame it closed. -/
theorem frameEndCompletes : Obligations.FrameEndCompletes :=
  ⟨rfl, fun _ hlegal hcount => frameEndCycle_of_legal [] hlegal hcount,
    fun m site _ h26 h32 h35 h37 => decodeResult_of_unknown m site h26 h32 h35 h37⟩

/-- A frame-end cycle with one edge completes: the first cell of the next frame is there on every legal instance. -/
theorem frameEndCycle_single_of_legal {s : State} (hlegal : s.params.Legal)
    (hcount : s.count.toNat ≤ s.params.maxBits) (v : Bit) :
    frameEndCycle [v] s = .next { s with
      out := decodeResult s.buf s.count s.cfgSite, outValid := true
      buf := s.buf.write 0 v, count := 1#7, elapsed := 1 } := by
  have hcell : (frameClosed s).count.toNat < (frameClosed s).params.maxBits := by
    simpa using Nat.lt_of_succ_le hlegal.1.1
  rw [frameEndCycle_of_legal [v] hlegal hcount, accumulate_single_of_lt v hcell]
  rfl

/-- Settles O35: one argument for both lines, whose operations differ in the bit alone. -/
theorem frameEndWithOneBitCompletes : Obligations.FrameEndWithOneBitCompletes :=
  ⟨rfl, rfl, fun _ hlegal hcount =>
    ⟨frameEndCycle_single_of_legal hlegal hcount false, frameEndCycle_single_of_legal hlegal hcount true⟩⟩

/-- R201: the overflows of FEND_REC01 are those of its two bits in an empty buffer; the decode raises none. -/
theorem bufferOverflow_mem_conditions_fendRec01 {s : State} {line : Bit} :
    Condition.bufferOverflow line ∈ conditions .fendRec01 s ↔ line ∈ [false, true].drop s.params.maxBits := by
  have hdecode : Condition.bufferOverflow line ∉ unknowns s := by
    unfold unknowns
    split <;> simp
  rw [conditions, overflows, droppedBits_eq_drop, Nat.sub_zero, List.mem_append, List.mem_map]
  simp [hdecode]

/-- Settles O36: into the empty buffer go both bits, or, if it has a single cell, line 0's. -/
theorem frameEndWithBothBitsCompletes : Obligations.FrameEndWithBothBitsCompletes := by
  refine ⟨rfl, fun s hlegal hcount => ?_⟩
  have hexec : exec .fendRec01 s = .next (accumulate [false, true] (frameClosed s)) :=
    frameEndCycle_of_legal [false, true] hlegal hcount
  simp only [bufferOverflow_mem_conditions_fendRec01, hexec]
  refine ⟨fun hroom => ⟨fun line => ?_, ?_⟩, fun hone => ⟨fun line => ?_, ?_⟩⟩
  · rw [List.drop_of_length_le hroom]
    exact List.not_mem_nil
  · rw [accumulate_pair_of_lt (s := frameClosed s) _ _ hlegal hroom]
    rfl
  · rw [hone]
    exact List.mem_singleton
  · rw [accumulate_pair_of_last (s := frameClosed s) _ _ hlegal hone.symm,
      ← frameEndCycle_of_legal [false] hlegal hcount]
    exact frameEndCycle_single_of_legal hlegal hcount false

end Sys2Proof.Machine

/-! The statements on the decoder (spec/42_decode.md): the keys that select its six rules, the fields each rule gives, and
the dispatch. -/

namespace Sys2Proof.Machine

/-! ### The fields as registers -/

/-- R11: a register wide enough for a field holds its cells, the last one as bit 0. -/
theorem getLsbD_ofNat_field (m : Memory) {w lo hi j : Nat} (hw : hi - lo ≤ w) (hj : j < hi - lo) :
    (BitVec.ofNat w (field m lo hi)).getLsbD j = m.read (hi - 1 - j) := by
  rw [BitVec.getLsbD_ofNat, field_testBit m hj, decide_eq_true (hj.trans_le hw), Bool.true_and]

/-- R168: zero-extension leaves a field the number it is. -/
theorem toNat_ofNat_field_lt (m : Memory) {w lo hi : Nat} (h : lo ≤ hi) :
    (BitVec.ofNat w (field m lo hi)).toNat < 2 ^ (hi - lo) := by
  rw [BitVec.toNat_ofNat]
  exact (Nat.mod_le _ _).trans_lt (field_lt m h)

/-- R54: after the byte swap byte `b` of the UID is the `b`-th byte received. -/
theorem resultW32_uid_getLsbD (m : Memory) {b k : Nat} (hb : b < 4) (hk : k < 8) :
    (resultW32 m).uid.getLsbD (8 * b + k) = m.read (8 * b + (7 - k)) := by
  rw [resultW32, bswap32_getLsbD _ hb hk, getLsbD_ofNat_field m (by omega) (by omega)]
  congr 1
  omega

/-! ### The keys -/

/-- R75: under the mask 0x7F a key shows its count; only the mode bit is left open. -/
theorem eq_selectorKey_of_masked {sk : BitVec 8} {n : Count} (h : sk &&& 0x7F = n.setWidth 8) :
    sk = selectorKey (sk.getLsbD 7) n := by
  apply BitVec.eq_of_getLsbD_eq
  intro i hi
  obtain hcount | rfl : i < 7 ∨ i = 7 := by omega
  · have hmask : (0x7F : BitVec 8).getLsbD i = true := by interval_cases i <;> rfl
    have hbit : (sk &&& 0x7F).getLsbD i = (n.setWidth 8).getLsbD i := by rw [h]
    rw [BitVec.getLsbD_and, hmask, Bool.and_true, BitVec.getLsbD_setWidth, decide_eq_true hi, Bool.true_and] at hbit
    rw [hbit, selectorKey, BitVec.getLsbD_append, if_pos hcount]
  · exact (selectorKey_fields _ n).1.symm

/-- R75: the rows with mask 0x7F select their rule whatever the mode bit. -/
theorem decode_select_of_masked {sk : BitVec 8} {n : Count} (h : sk &&& 0x7F = n.setWidth 8) (hn : n ≠ 26#7) :
    decode (.select sk) = decodeSelect (selectorKey false n) := by
  rw [eq_selectorKey_of_masked h, decode]
  simp only [decodeSelect_selectorKey, if_neg hn]

/-! ### The rules -/

/-- R171: on a legal instance that has the operand cells, a decode rule loads the result registers and nothing else. -/
theorem configured_loadDecoded_of_le {len : Nat} (r : Result) {s : State} (hlegal : s.params.Legal)
    (hcells : len ≤ s.params.maxBits) : configured s (loadDecoded len r s) = .next { s with out := r } := by
  rw [configured_of_legal _ hlegal, loadDecoded_of_le r hcells]
  rfl

/-- R160: the rule the selector key selects is `Decode` of the frame in the buffer. -/
theorem exec_decodeRule (s : State) : exec s.decodeRule s = configured s (decodeFrame s) := by
  rw [State.decodeRule, State.sk, decode, decodeSelect_selectorKey, decodeFrame]
  obtain ⟨hn, hsite, hresult⟩ | ⟨hn, hsite, hresult⟩ | ⟨hn, hresult⟩ | ⟨hn, hresult⟩ | ⟨hn, hresult⟩ |
      ⟨⟨h26, h35, h37, h32⟩, hresult⟩ := decodeResult_cases s.buf s.count s.cfgSite <;> rw [hresult]
  · rw [hn, hsite]
    rfl
  · rw [hn, hsite]
    rfl
  · rw [hn]
    rfl
  · rw [hn]
    rfl
  · rw [hn]
    rfl
  · simp only [h26, h35, h37, h32, operandCells, if_false, or_self]
    rfl

/-- Settles O50: a frame inside the buffer has the operand cells of the rule its length selects. -/
theorem selectedRuleIsDecode : Obligations.SelectedRuleIsDecode := by
  intro s hlegal hcount
  rw [exec_decodeRule]
  exact configured_loadDecoded_of_le _ hlegal ((operandCells_le _).trans hcount)

/-- Settles O41: the 24 cells of the card code fill its register. -/
theorem decodeW26nCompletes : Obligations.DecodeW26nCompletes :=
  ⟨rfl, fun s hlegal hcells => ⟨resultW26n s.buf, configured_loadDecoded_of_le _ hlegal hcells, rfl, rfl, rfl, rfl,
    fun _ hj => getLsbD_ofNat_field s.buf (by decide) hj⟩⟩

/-- Settles O42: cells 1 to 8 and cells 9 to 24. -/
theorem decodeW26sCompletes : Obligations.DecodeW26sCompletes :=
  ⟨rfl, fun s hlegal hcells => ⟨resultW26s s.buf, configured_loadDecoded_of_le _ hlegal hcells, rfl, rfl, rfl,
    toNat_ofNat_field_lt s.buf (by decide), toNat_ofNat_field_lt s.buf (by decide),
    fun _ hj => getLsbD_ofNat_field s.buf (by decide) hj, fun _ hj => getLsbD_ofNat_field s.buf (by decide) hj⟩⟩

/-- Settles O44: cells 2 to 13 and cells 14 to 33. -/
theorem decodeW35Completes : Obligations.DecodeW35Completes :=
  ⟨fun _ hkey => decode_select_of_masked (n := 35#7) hkey (by decide),
    fun s hlegal hcells => ⟨resultW35 s.buf, configured_loadDecoded_of_le _ hlegal hcells, rfl, rfl, rfl,
      toNat_ofNat_field_lt s.buf (by decide), toNat_ofNat_field_lt s.buf (by decide),
      fun _ hj => getLsbD_ofNat_field s.buf (by decide) hj, fun _ hj => getLsbD_ofNat_field s.buf (by decide) hj⟩⟩

/-- Settles O45: cells 2 to 16 and cells 18 to 35. -/
theorem decodeW37Completes : Obligations.DecodeW37Completes :=
  ⟨fun _ hkey => decode_select_of_masked (n := 37#7) hkey (by decide),
    fun s hlegal hcells => ⟨resultW37 s.buf, configured_loadDecoded_of_le _ hlegal hcells, rfl, rfl, rfl,
      toNat_ofNat_field_lt s.buf (by decide), toNat_ofNat_field_lt s.buf (by decide),
      fun _ hj => getLsbD_ofNat_field s.buf (by decide) hj, fun _ hj => getLsbD_ofNat_field s.buf (by decide) hj⟩⟩

/-- Settles O46: the 32 cells as one field, with its bytes swapped. -/
theorem decodeW32Completes : Obligations.DecodeW32Completes :=
  ⟨fun _ hkey => decode_select_of_masked (n := 32#7) hkey (by decide),
    fun s hlegal hcells => ⟨resultW32 s.buf, configured_loadDecoded_of_le _ hlegal hcells, rfl, rfl, rfl, rfl,
      fun _ _ => resultW32_uid_getLsbD s.buf⟩⟩

/-- Settles O47: no row before the last matches, and the last reads no cell. -/
theorem decodeUnknownCompletes : Obligations.DecodeUnknownCompletes := by
  refine ⟨fun site n h26 h32 h35 h37 => ?_, fun s hlegal =>
    ⟨rfl, configured_loadDecoded_of_le (resultUnk s.count) hlegal (Nat.zero_le _)⟩⟩
  rw [decode, decodeSelect_selectorKey, if_neg h26, if_neg h35, if_neg h37, if_neg h32]

/-- Settles O52: each rule has a tag of its own, so of the six clauses only the one of the selected rule says anything. -/
theorem unusedFieldsAreZero : Obligations.UnusedFieldsAreZero := by
  intro m n site
  obtain ⟨rfl, -, hresult⟩ | ⟨rfl, -, hresult⟩ | ⟨rfl, hresult⟩ | ⟨rfl, hresult⟩ | ⟨rfl, hresult⟩ | ⟨-, hresult⟩ :=
    decodeResult_cases m n site <;> rw [hresult]
  · exact ⟨rfl, fun _ => ⟨rfl, rfl⟩, nofun, nofun, nofun, nofun, nofun, Nat.zero_le 5⟩
  · exact ⟨rfl, nofun, fun _ => ⟨rfl, toNat_ofNat_field_lt m (by decide), toNat_ofNat_field_lt m (by decide)⟩,
      nofun, nofun, nofun, nofun, show 1 ≤ 5 by decide⟩
  · exact ⟨rfl, nofun, nofun, fun _ => ⟨rfl, toNat_ofNat_field_lt m (by decide), toNat_ofNat_field_lt m (by decide)⟩,
      nofun, nofun, nofun, show 2 ≤ 5 by decide⟩
  · exact ⟨rfl, nofun, nofun, nofun,
      fun _ => ⟨rfl, toNat_ofNat_field_lt m (by decide), toNat_ofNat_field_lt m (by decide)⟩,
      nofun, nofun, show 3 ≤ 5 by decide⟩
  · exact ⟨rfl, nofun, nofun, nofun, nofun, fun _ => ⟨rfl, rfl⟩, nofun, show 4 ≤ 5 by decide⟩
  · exact ⟨rfl, nofun, nofun, nofun, nofun, nofun, fun _ => ⟨rfl, rfl, rfl⟩, le_refl 5⟩

end Sys2Proof.Machine

/-! What a step can do, once: the registers its appends start from, the three cases of `rst`, and appends that store
nothing. -/

namespace Sys2Proof.Machine

/-! ### The appends of a cycle -/

/-- R201: in a full buffer the appends of a cycle do nothing. -/
theorem appendAll_of_full (bits : List Bit) {s : State} (hfull : s.params.maxBits ≤ s.count.toNat) :
    appendAll bits s = (s, false) := by
  induction bits with
  | nil => rfl
  | cons v vs ih => simp only [appendAll, appendBit_of_full v hfull, ih, Bool.or_self]

/-- A cycle stores nothing when it brings no bit or finds no room; then the appends do nothing. -/
theorem appendAll_of_not_stored {bits : List Bit} {s : State} (h : (appendAll bits s).2 = false) :
    (appendAll bits s).1 = s := by
  cases bits with
  | nil => rfl
  | cons v vs =>
    have hfull : s.params.maxBits ≤ s.count.toNat := by simpa [appendAll_stored] using h
    rw [appendAll_of_full _ hfull]

/-- A cycle that stores a bit leaves a frame that is not empty. -/
theorem appendAll_count_ne_zero {bits : List Bit} {s : State} (hlegal : s.params.Legal)
    (h : (appendAll bits s).2 = true) : (appendAll bits s).1.count ≠ 0#7 := by
  obtain ⟨hbits, hroom⟩ : bits ≠ [] ∧ s.count.toNat < s.params.maxBits := by simpa [appendAll_stored] using h
  have hlen := List.length_pos_of_ne_nil hbits
  have hcount := appendAll_count bits hlegal hroom.le
  intro h0
  rw [h0, BitVec.toNat_zero] at hcount
  omega

/-- R104: no append writes at an index the buffer does not have. -/
theorem appendAll_lookup_outside (bits : List Bit) {s : State} {a : Nat} (ha : s.params.maxBits ≤ a) :
    (appendAll bits s).1.buf.lookup a = s.buf.lookup a := by
  induction bits generalizing s with
  | nil => rfl
  | cons v vs ih =>
    simp only [appendAll]
    rcases appendBit_cases v s with ⟨hroom, he⟩ | ⟨-, he⟩
    · rw [he, ih (s := (s.setBuf (s.buf.write s.count.toNat v)).setCount (s.count + 1#7)) ha]
      exact Memory.lookup_write_of_ne _ _ (by omega)
    · rw [he, ih ha]

/-- R56: the appends of a cycle leave every cell but those from `count` on, as many as there are bits. -/
theorem appendAll_read_of_not_appended (bits : List Bit) {s : State} (hlegal : s.params.Legal) {a : Nat}
    (ha : a < s.count.toNat ∨ s.count.toNat + bits.length ≤ a) :
    (appendAll bits s).1.buf.read a = s.buf.read a := by
  unfold Memory.read
  rcases ha with ha | ha
  · rw [appendAll_lookup_old bits hlegal ha]
  · rw [appendAll_lookup_beyond bits hlegal ha]

/-! ### What the appends of a cycle start from -/

/-- The registers that the appends of a cycle with `rst = 0` start from (R76): the frame closed, if the comparator says so,
and else `out_valid` lowered. -/
def State.appendBase (s : State) : State := if s.fe then frameClosed s else s.setOutValid false

theorem State.appendBase_of_fe {s : State} (h : s.fe = true) : s.appendBase = frameClosed s := if_pos h

theorem State.appendBase_of_not_fe {s : State} (h : s.fe = false) : s.appendBase = s.setOutValid false := by
  simp [State.appendBase, h]

section
variable (s : State)

@[simp] theorem State.appendBase_params : s.appendBase.params = s.params := by unfold appendBase; split <;> rfl
@[simp] theorem State.appendBase_line0 : s.appendBase.line0 = s.line0 := by unfold appendBase; split <;> rfl
@[simp] theorem State.appendBase_line1 : s.appendBase.line1 = s.line1 := by unfold appendBase; split <;> rfl
@[simp] theorem State.appendBase_buf : s.appendBase.buf = s.buf := by unfold appendBase; split <;> rfl
@[simp] theorem State.appendBase_cfgSite : s.appendBase.cfgSite = s.cfgSite := by unfold appendBase; split <;> rfl
@[simp] theorem State.appendBase_outValid : s.appendBase.outValid = s.fe := by
  cases h : s.fe
  · rw [appendBase_of_not_fe h]; rfl
  · rw [appendBase_of_fe h]; rfl
@[simp] theorem State.appendBase_inputs : s.appendBase.inputs = s.inputs := by unfold appendBase; split <;> rfl
@[simp] theorem State.appendBase_cycle : s.appendBase.cycle = s.cycle := by unfold appendBase; split <;> rfl
theorem State.appendBase_count : s.appendBase.count = if s.fe then 0#7 else s.count := by
  unfold appendBase; split <;> rfl
theorem State.appendBase_elapsed : s.appendBase.elapsed = if s.fe then 0 else s.elapsed := by
  unfold appendBase; split <;> rfl
theorem State.appendBase_out :
    s.appendBase.out = if s.fe then decodeResult s.buf s.count s.cfgSite else s.out := by
  unfold appendBase; split <;> rfl

end

/-! ### The two cases of a step -/

/-- R20: a `rst` that does not change at the edge is 0 or 1. -/
theorem rst_low_or_high {s : State} (h : s.pins.rst ≠ .changing) : s.pins.rst = .low ∨ s.pins.rst = .high := by
  cases hrst : s.pins.rst
  · exact .inl rfl
  · exact .inr rfl
  · exact absurd hrst h

theorem rstSynchronous_iff {s : State} : s.rstSynchronous = true ↔ s.pins.rst ≠ .changing := by
  simp [State.rstSynchronous]

/-- Everything a step can do when it answers a next state: accumulate the cycle's bits, with the operand cells of a frame
that it closes in the buffer, or reset. -/
theorem step_next_cases {s t : State} (h : step s = .next t) :
    s.params.Legal ∧
    ((s.pins.rst = .low ∧ (s.fe = true → operandCells s.count ≤ s.params.maxBits) ∧
        t = endCycle s (accumulate (eventBits s.e1 s.e0) s.appendBase)) ∨
     (s.pins.rst = .high ∧ t = (resetAll s.siteMode s).tick)) := by
  obtain ⟨hsync, u, hu, rfl⟩ := step_eq_next_iff.mp h
  rw [State.operation, State.xw, decode, exec_decodeExecute] at hu
  rcases rst_low_or_high (rstSynchronous_iff.mp hsync) with hlow | hhigh
  · rw [if_neg (by simp [State.rst, hlow])] at hu
    cases hfe : s.fe with
    | false =>
      rw [hfe, if_neg Bool.false_ne_true] at hu
      obtain ⟨hlegal, rfl⟩ := captureCycle_eq_next_iff.mp hu
      exact ⟨hlegal, .inl ⟨hlow, nofun, by rw [State.appendBase_of_not_fe hfe]⟩⟩
    | true =>
      rw [hfe, if_pos rfl] at hu
      obtain ⟨hlegal, hcells, rfl⟩ := frameEndCycle_eq_next_iff.mp hu
      exact ⟨hlegal, .inl ⟨hlow, fun _ => hcells, by rw [State.appendBase_of_fe hfe]⟩⟩
  · have hrst : s.rst = true := by simp [State.rst, hhigh]
    rw [if_pos hrst] at hu
    obtain ⟨hlegal, hnext⟩ := configured_eq_next_iff.mp hu
    cases hnext
    exact ⟨hlegal, .inr ⟨hhigh, endCycle_of_rst _ hrst⟩⟩

/-- A step of a state that meets the invariants, in a cycle with `rst = 0`. -/
theorem State.Inv.step_of_rst_low {s : State} (hinv : s.Inv) (hrst : s.pins.rst = .low) :
    step s = .next (endCycle s (accumulate (eventBits s.e1 s.e0) s.appendBase)) :=
  Machine.step_of_rst_low hinv.params_legal hinv.count_le hrst

end Sys2Proof.Machine

/-! The statements on what every step keeps (spec/10_state.md section 3): the parameters, the invariants, the result
ranges, and that no condition stops the block. -/

namespace Sys2Proof.Machine

/-! ### The parameters -/

/-- R6: the parameters are no register. -/
theorem exec_keeps_params {i : Instr} {s t : State} (h : exec i s = .next t) : t.params = s.params := by
  obtain ⟨-, ⟨_, _, -, rfl⟩ | ⟨_, _, -, -, rfl⟩ | ⟨-, rfl⟩ | ⟨_, _, -, _, rfl⟩⟩ := exec_cases h
  · simp
  · simp
  · simp
  · simp

theorem step_keeps_params {s t : State} (h : step s = .next t) : t.params = s.params := by
  obtain ⟨-, u, hu, rfl⟩ := step_eq_next_iff.mp h
  rw [endCycle_params, exec_keeps_params hu]

/-- Settles O13: neither an operation nor the end of the cycle writes them. -/
theorem parametersNeverChange : Obligations.ParametersNeverChange :=
  ⟨fun _ _ _ => exec_keeps_params, fun _ _ => step_keeps_params⟩

/-! ### The invariants -/

/-- R131: the timer is 0 for an empty frame. -/
theorem accumulate_elapsed_of_empty (bits : List Bit) {s : State} (hlegal : s.params.Legal)
    (h : (accumulate bits s).count = 0#7) : (accumulate bits s).elapsed = 0 := by
  rw [accumulate_count] at h
  rw [accumulate_elapsed, h]
  cases hstored : (appendAll bits s).2 with
  | false => rfl
  | true => exact absurd h (appendAll_count_ne_zero hlegal hstored)

/-- R131: the timer of an open frame is at least 1. -/
theorem accumulate_elapsed_of_open (bits : List Bit) {s : State} (hlegal : s.params.Legal)
    (h : (accumulate bits s).count ≠ 0#7) : 1 ≤ (accumulate bits s).elapsed := by
  have hquiet : 1 ≤ s.params.quietCycles := hlegal.2.1.1
  rw [accumulate_count] at h
  rw [accumulate_elapsed]
  cases (appendAll bits s).2 with
  | false => rw [elapsedNext_running _ _ h]; omega
  | true => exact le_rfl

/-- R63: an append writes the cells that it adds to the frame. -/
theorem appendAll_keeps_written (bits : List Bit) {s : State} (hlegal : s.params.Legal)
    (hcount : s.count.toNat ≤ s.params.maxBits) (hwritten : ∀ i, i < s.count.toNat → (s.buf.lookup i).isSome) :
    ∀ i, i < (appendAll bits s).1.count.toNat → ((appendAll bits s).1.buf.lookup i).isSome := by
  intro i hi
  rw [appendAll_count bits hlegal hcount] at hi
  rcases Nat.lt_or_ge i s.count.toNat with hold | hnew
  · rw [appendAll_lookup_old bits hlegal hold]
    exact hwritten i hold
  · obtain ⟨k, rfl⟩ := Nat.exists_eq_add_of_le hnew
    have hk : k < bits.length := by omega
    rw [appendAll_lookup_new bits hlegal hk (by omega), List.getElem?_eq_getElem hk]
    rfl

/-- The last part of a cycle keeps the invariants. -/
theorem State.Inv.accumulate {s : State} (hinv : s.Inv) (bits : List Bit) : (accumulate bits s).Inv where
  params_legal := by simpa using hinv.params_legal
  chain0 := by simpa using hinv.chain0
  chain1 := by simpa using hinv.chain1
  buf_wf := by simpa using appendAll_wf bits hinv.buf_wf
  buf_range := by simpa using appendAll_range bits hinv.buf_range
  count_le := by
    rw [accumulate_count, accumulate_params, appendAll_count bits hinv.params_legal hinv.count_le]
    exact Nat.min_le_right _ _
  elapsed_le := by
    rw [accumulate_elapsed, accumulate_params]
    exact elapsedNext_le hinv.params_legal.2.1.1 _ _
  elapsed_idle := accumulate_elapsed_of_empty bits hinv.params_legal
  elapsed_busy := accumulate_elapsed_of_open bits hinv.params_legal
  fmt_le := by simpa using hinv.fmt_le
  written := by simpa using appendAll_keeps_written bits hinv.params_legal hinv.count_le hinv.written

/-- R77: the decoder gives a tag of at most 5. -/
theorem decodeResult_fmt_le (m : Memory) (n : Count) (site : Bit) : (decodeResult m n site).fmt.toNat ≤ 5 := by
  obtain ⟨-, -, -, -, -, -, -, hfmt⟩ := unusedFieldsAreZero m n site
  exact hfmt

/-- The frame end keeps the invariants: the cleared frame is empty and its timer 0. -/
theorem State.Inv.frameClosed {s : State} (hinv : s.Inv) : (frameClosed s).Inv where
  params_legal := hinv.params_legal
  chain0 := hinv.chain0
  chain1 := hinv.chain1
  buf_wf := hinv.buf_wf
  buf_range := hinv.buf_range
  count_le := Nat.zero_le _
  elapsed_le := Nat.zero_le _
  elapsed_idle := fun _ => rfl
  elapsed_busy := fun h => absurd rfl h
  fmt_le := decodeResult_fmt_le _ _ _
  written := nofun

theorem State.Inv.appendBase {s : State} (hinv : s.Inv) : s.appendBase.Inv := by
  cases hfe : s.fe with
  | false =>
    rw [State.appendBase_of_not_fe hfe]
    exact { hinv with }
  | true =>
    rw [State.appendBase_of_fe hfe]
    exact hinv.frameClosed

/-- RESET keeps the invariants: the frame is discarded, the cells keep their content (R27). -/
theorem State.Inv.resetAll {s : State} (hinv : s.Inv) (site : Bit) : (resetAll site s).Inv where
  params_legal := hinv.params_legal
  chain0 := LineFront.afterReset_length _
  chain1 := LineFront.afterReset_length _
  buf_wf := hinv.buf_wf
  buf_range := hinv.buf_range
  count_le := Nat.zero_le _
  elapsed_le := Nat.zero_le _
  elapsed_idle := fun _ => rfl
  elapsed_busy := fun h => absurd rfl h
  fmt_le := Nat.zero_le _
  written := nofun

/-- The end of a cycle keeps the invariants: a shift keeps the length of its chain. -/
theorem State.Inv.endCycle {s t : State} (hs : s.Inv) (ht : t.Inv) (hparams : t.params = s.params) :
    (endCycle s t).Inv := by
  cases hrst : s.rst with
  | true =>
    rw [endCycle_of_rst _ hrst]
    exact { ht with }
  | false =>
    rw [endCycle_of_not_rst _ hrst]
    exact { ht with
      chain0 := by rw [State.tick_params, State.setLines_params, hparams]; exact LineFront.shift_length _ hs.chain0
      chain1 := by rw [State.tick_params, State.setLines_params, hparams]; exact LineFront.shift_length _ hs.chain1 }

/-- Settles O19: each part of a cycle keeps the invariants, the frame end or the fall of `out_valid`, the appends, the
shift of the front ends, and RESET in place of all three. -/
theorem everyStepKeepsInvariants : Obligations.EveryStepKeepsInvariants := by
  intro s t hinv h
  obtain ⟨-, ⟨-, -, rfl⟩ | ⟨-, rfl⟩⟩ := step_next_cases h
  · exact hinv.endCycle (hinv.appendBase.accumulate _) (by simp)
  · exact { hinv.resetAll s.siteMode with }

/-! ### The result ranges -/

/-- The result ranges read the result registers and MAX_BITS only. -/
theorem State.ResultInv.congr {s t : State} (hinv : s.ResultInv) (hout : t.out = s.out) (hparams : t.params = s.params) :
    t.ResultInv := by
  constructor <;> rw [hout]
  · exact hinv.fmt_le
  · exact hinv.fc_lt
  · rw [hparams]; exact hinv.nbits_le
  · exact hinv.uid_zero
  · exact hinv.fc_zero
  · exact hinv.cc_zero

/-- R168: a facility code has at most 15 bits, and the fields a tag's variant does not carry are 0. -/
theorem decodeResult_ranges (m : Memory) (n : Count) (site : Bit) :
    (decodeResult m n site).fc.toNat < 2 ^ 15 ∧
    ((decodeResult m n site).fmt ≠ 4#3 → (decodeResult m n site).uid = 0#32) ∧
    ((decodeResult m n site).fmt = 0#3 ∨ (decodeResult m n site).fmt = 4#3 ∨ (decodeResult m n site).fmt = 5#3 →
      (decodeResult m n site).fc = 0#16) ∧
    ((decodeResult m n site).fmt = 4#3 ∨ (decodeResult m n site).fmt = 5#3 → (decodeResult m n site).cc = 0#24) := by
  obtain ⟨-, -, hresult⟩ | ⟨-, -, hresult⟩ | ⟨-, hresult⟩ | ⟨-, hresult⟩ | ⟨-, hresult⟩ | ⟨-, hresult⟩ :=
    decodeResult_cases m n site <;> rw [hresult]
  · exact ⟨Nat.two_pow_pos 15, fun _ => rfl, fun _ => rfl, nofun⟩
  · exact ⟨(toNat_ofNat_field_lt m (by decide)).trans (by decide), fun _ => rfl, nofun, nofun⟩
  · exact ⟨(toNat_ofNat_field_lt m (by decide)).trans (by decide), fun _ => rfl, nofun, nofun⟩
  · exact ⟨toNat_ofNat_field_lt m (by decide), fun _ => rfl, nofun, nofun⟩
  · exact ⟨Nat.two_pow_pos 15, fun h => absurd rfl h, fun _ => rfl, fun _ => rfl⟩
  · exact ⟨Nat.two_pow_pos 15, fun _ => rfl, fun _ => rfl, fun _ => rfl⟩

/-- What the decoder gives for a frame inside the buffer meets the result ranges. -/
theorem resultInv_of_decoded {s : State} {m : Memory} {n : Count} {site : Bit} (hn : n.toNat ≤ s.params.maxBits)
    (hout : s.out = decodeResult m n site) : s.ResultInv := by
  obtain ⟨hnbits, -⟩ := unusedFieldsAreZero m n site
  obtain ⟨hfc, huid, hfczero, hcczero⟩ := decodeResult_ranges m n site
  constructor <;> rw [hout]
  · exact decodeResult_fmt_le m n site
  · exact hfc
  · rw [hnbits]; exact hn
  · exact huid
  · exact hfczero
  · exact hcczero

/-- The reset values of the result registers meet the result ranges. -/
theorem resultInv_of_out_zero {s : State} (hout : s.out = Result.zero) : s.ResultInv := by
  constructor <;> rw [hout]
  · exact Nat.zero_le _
  · exact Nat.two_pow_pos 15
  · exact Nat.zero_le _
  · exact fun _ => rfl
  · exact fun _ => rfl
  · exact fun _ => rfl

/-- R41 at reset: every chain has its length, the buffer lists no cell, and the frame is empty. -/
theorem resetFor_inv {p : Params} (hlegal : p.Legal) (site : Bit) : (State.resetFor p site).Inv where
  params_legal := hlegal
  chain0 := LineFront.afterReset_length _
  chain1 := LineFront.afterReset_length _
  buf_wf := List.Pairwise.nil
  buf_range := nofun
  count_le := Nat.zero_le _
  elapsed_le := Nat.zero_le _
  elapsed_idle := fun _ => rfl
  elapsed_busy := fun h => absurd rfl h
  fmt_le := Nat.zero_le _
  written := nofun

/-- Settles O18: what holds at reset of any legal instance holds of the one State.reset describes. -/
theorem resetMeetsInvariants : Obligations.ResetMeetsInvariants :=
  ⟨fun _ site hlegal => ⟨resetFor_inv hlegal site, resultInv_of_out_zero rfl, rfl, rfl⟩, resetFor_inv (by decide) _⟩

/-- Settles O20: a step leaves the result registers, loads a decode of its own frame, or resets them. -/
theorem everyStepKeepsResultRanges : Obligations.EveryStepKeepsResultRanges := by
  intro s t hinv hresult h
  have hparams := step_keeps_params h
  obtain ⟨-, ⟨-, -, rfl⟩ | ⟨-, rfl⟩⟩ := step_next_cases h
  · cases hfe : s.fe with
    | false => exact hresult.congr (by simp [State.appendBase_out, hfe]) hparams
    | true =>
      exact resultInv_of_decoded (m := s.buf) (site := s.cfgSite) (hparams ▸ hinv.count_le)
        (by simp [State.appendBase_out, hfe])
  · exact resultInv_of_out_zero rfl

/-- Settles O21: with `rst = 0` the frame is inside the buffer, so its operand cells exist; RESET asks for legal
parameters only. -/
theorem nothingIsFatal : Obligations.NothingIsFatal := by
  intro s hinv hsync
  rcases rst_low_or_high hsync with hlow | hhigh
  · exact ⟨_, hinv.step_of_rst_low hlow⟩
  · exact ⟨_, step_of_rst_high hinv.params_legal hhigh⟩

end Sys2Proof.Machine

/-! The statements on the cells that a result reads (spec/42_decode.md section 3, spec/20_memory.md section 6): those each
format ignores, and the stale cells from `count` on. -/

namespace Sys2Proof.Machine

/-! ### The cells a result reads -/

/-- R162, R163: with either mode a 26-bit frame gives cells 1 to 24. -/
theorem decodeResult_congr_26 {m m' : Memory} (site : Bit)
    (h : ∀ i, i < 26 → i ≠ 0 → i ≠ 25 → m.read i = m'.read i) :
    decodeResult m 26#7 site = decodeResult m' 26#7 site := by
  have hread : ∀ lo hi, 1 ≤ lo → hi ≤ 25 → field m lo hi = field m' lo hi := fun lo hi hlo hhi =>
    field_congr fun i hlow hhigh => h i (by omega) (by omega) (by omega)
  cases site with
  | false =>
    change resultW26n m = resultW26n m'
    simp only [resultW26n, hread 1 25 (by decide) (by decide)]
  | true =>
    change resultW26s m = resultW26s m'
    simp only [resultW26s, hread 1 9 (by decide) (by decide), hread 9 25 (by decide) (by decide)]

/-- R164: cells 2 to 33. -/
theorem decodeResult_congr_35 {m m' : Memory} (site : Bit)
    (h : ∀ i, i < 35 → i ≠ 0 → i ≠ 1 → i ≠ 34 → m.read i = m'.read i) :
    decodeResult m 35#7 site = decodeResult m' 35#7 site := by
  have hread : ∀ lo hi, 2 ≤ lo → hi ≤ 34 → field m lo hi = field m' lo hi := fun lo hi hlo hhi =>
    field_congr fun i hlow hhigh => h i (by omega) (by omega) (by omega) (by omega)
  change resultW35 m = resultW35 m'
  simp only [resultW35, hread 2 14 (by decide) (by decide), hread 14 34 (by decide) (by decide)]

/-- R165: cells 2 to 16 and 18 to 35. -/
theorem decodeResult_congr_37 {m m' : Memory} (site : Bit)
    (h : ∀ i, i < 37 → i ≠ 0 → i ≠ 1 → i ≠ 17 → i ≠ 36 → m.read i = m'.read i) :
    decodeResult m 37#7 site = decodeResult m' 37#7 site := by
  have hfc : field m 2 17 = field m' 2 17 :=
    field_congr fun i hlow hhigh => h i (by omega) (by omega) (by omega) (by omega) (by omega)
  have hcc : field m 18 36 = field m' 18 36 :=
    field_congr fun i hlow hhigh => h i (by omega) (by omega) (by omega) (by omega) (by omega)
  change resultW37 m = resultW37 m'
  simp only [resultW37, hfc, hcc]

/-- R166: all 32 cells. -/
theorem decodeResult_congr_32 {m m' : Memory} (site : Bit) (h : ∀ i, i < 32 → m.read i = m'.read i) :
    decodeResult m 32#7 site = decodeResult m' 32#7 site := by
  change resultW32 m = resultW32 m'
  simp only [resultW32, field_congr fun i _ hhigh => h i hhigh]

/-- R167: no cell. -/
theorem decodeResult_congr_unknown (m m' : Memory) (site : Bit) {n : Count} (h26 : n ≠ 26#7) (h35 : n ≠ 35#7)
    (h37 : n ≠ 37#7) (h32 : n ≠ 32#7) : decodeResult m n site = decodeResult m' n site := by
  rw [decodeResult_of_unknown m site h26 h32 h35 h37, decodeResult_of_unknown m' site h26 h32 h35 h37]

/-- Settles O53: the two fields of each format leave out exactly the ignored cells. -/
theorem ignoredBitsHaveNoEffect : Obligations.IgnoredBitsHaveNoEffect := fun m m' site =>
  ⟨decodeResult_congr_26 site, decodeResult_congr_35 site, decodeResult_congr_37 site, decodeResult_congr_32 site,
    fun _ => decodeResult_congr_unknown m m' site⟩

/-- R63: a decode reads no cell outside its frame. -/
theorem decodeResult_congr {m m' : Memory} {n : Count} (site : Bit) (h : ∀ i, i < n.toNat → m.read i = m'.read i) :
    decodeResult m n site = decodeResult m' n site := by
  obtain ⟨rfl, -⟩ | ⟨rfl, -⟩ | ⟨rfl, -⟩ | ⟨rfl, -⟩ | ⟨rfl, -⟩ | ⟨⟨h26, h35, h37, h32⟩, -⟩ := decodeResult_cases m n site
  · exact decodeResult_congr_26 site fun i hi _ _ => h i hi
  · exact decodeResult_congr_26 site fun i hi _ _ => h i hi
  · exact decodeResult_congr_35 site fun i hi _ _ _ => h i hi
  · exact decodeResult_congr_37 site fun i hi _ _ _ _ => h i hi
  · exact decodeResult_congr_32 site h
  · exact decodeResult_congr_unknown m m' site h26 h35 h37 h32

/-! ### Stale cells -/

/-- The appends of a cycle do the same whatever the cells from `count` on hold: they read none, and the cells they add to
the frame they write. -/
theorem appendAll_setBuf (bits : List Bit) {s : State} {m : Memory} (hlegal : s.params.Legal)
    (h : ∀ i, i < s.count.toNat → m.lookup i = s.buf.lookup i) :
    ∃ m', appendAll bits (s.setBuf m) = ((appendAll bits s).1.setBuf m', (appendAll bits s).2) ∧
      ∀ i, i < (appendAll bits s).1.count.toNat → m'.lookup i = (appendAll bits s).1.buf.lookup i := by
  induction bits generalizing s m with
  | nil => exact ⟨m, rfl, h⟩
  | cons v vs ih =>
    rcases appendBit_cases v s with ⟨hroom, he⟩ | ⟨hfull, -⟩
    · have hstored : appendBit v (s.setBuf m) =
          ((appendBit v s).1.setBuf (m.write s.count.toNat v), true) := by
        rw [appendBit_of_lt v hroom, appendBit_of_lt v (s := s.setBuf m) hroom]; rfl
      have hagree : ∀ i, i < (s.count + 1#7).toNat →
          (m.write s.count.toNat v).lookup i = (s.buf.write s.count.toNat v).lookup i := by
        intro i hi
        rw [toNat_count_succ hlegal hroom] at hi
        obtain hold | rfl : i < s.count.toNat ∨ i = s.count.toNat := by omega
        · rw [Memory.lookup_write_of_ne _ _ hold.ne, Memory.lookup_write_of_ne _ _ hold.ne, h i hold]
        · rw [Memory.lookup_write_same, Memory.lookup_write_same]
      obtain ⟨m', hm', hcells⟩ := ih (s := (appendBit v s).1) (m := m.write s.count.toNat v) (by rwa [he])
        (by rw [he]; exact hagree)
      refine ⟨m', ?_, hcells⟩
      simp only [appendAll, hstored, hm']
      simp only [he]
    · rw [appendAll_of_full (s := s.setBuf m) _ hfull, appendAll_of_full _ hfull]
      exact ⟨m, rfl, h⟩

/-- The last part of a cycle does the same whatever the cells from `count` on hold. -/
theorem accumulate_setBuf (bits : List Bit) {s : State} {m : Memory} (hlegal : s.params.Legal)
    (h : ∀ i, i < s.count.toNat → m.lookup i = s.buf.lookup i) :
    ∃ m', accumulate bits (s.setBuf m) = (accumulate bits s).setBuf m' ∧
      ∀ i, i < (accumulate bits s).count.toNat → m'.lookup i = (accumulate bits s).buf.lookup i := by
  obtain ⟨m', hm', hcells⟩ := appendAll_setBuf bits hlegal h
  refine ⟨m', ?_, by simpa using hcells⟩
  rw [accumulate, hm']
  rfl

/-- The first part of a cycle, the frame end included, reads no cell from `count` on. -/
theorem State.appendBase_setBuf {s : State} {m : Memory} (h : ∀ i, i < s.count.toNat → m.lookup i = s.buf.lookup i) :
    (s.setBuf m).appendBase = s.appendBase.setBuf m := by
  cases hfe : s.fe with
  | false => rw [appendBase_of_not_fe hfe, appendBase_of_not_fe (s := s.setBuf m) hfe]; rfl
  | true =>
    have hdecode : decodeResult m s.count s.cfgSite = decodeResult s.buf s.count s.cfgSite :=
      decodeResult_congr _ fun i hi => by rw [Memory.read, Memory.read, h i hi]
    rw [appendBase_of_fe hfe, appendBase_of_fe (s := s.setBuf m) hfe, frameClosed, frameClosed, State.setBuf_buf,
      State.setBuf_count, State.setBuf_cfgSite, hdecode]
    rfl

/-- The end of a cycle reads no cell. -/
theorem endCycle_setBuf (s t : State) (m m' : Memory) :
    endCycle (s.setBuf m) (t.setBuf m') = (endCycle s t).setBuf m' := by
  cases hrst : s.rst with
  | true => rw [endCycle_of_rst _ hrst, endCycle_of_rst (s := s.setBuf m) _ hrst]; rfl
  | false => rw [endCycle_of_not_rst _ hrst, endCycle_of_not_rst (s := s.setBuf m) _ hrst]; rfl

/-- Settles O59: neither the decode nor an append reads a stale cell, a cell that joins the frame is written first, and a
frame end or a reset leaves a frame without cells. -/
theorem staleCellsAreUnobservable : Obligations.StaleCellsAreUnobservable := by
  intro s t m hinv hagree h
  obtain ⟨hlegal, ⟨hlow, -, rfl⟩ | ⟨hhigh, rfl⟩⟩ := step_next_cases h
  · have hbase : ∀ i, i < s.appendBase.count.toNat → m.lookup i = s.appendBase.buf.lookup i := by
      intro i hi
      rw [State.appendBase_count] at hi
      rw [State.appendBase_buf]
      split at hi
      · exact absurd hi (Nat.not_lt_zero i)
      · exact hagree i hi
    obtain ⟨m', hm', hcells⟩ :=
      accumulate_setBuf (eventBits s.e1 s.e0) (s := s.appendBase) (by simpa using hlegal) hbase
    refine ⟨m', ?_, by simpa using hcells⟩
    calc step (s.setBuf m)
      _ = .next (endCycle (s.setBuf m) (accumulate (eventBits s.e1 s.e0) (s.setBuf m).appendBase)) :=
        step_of_rst_low (s := s.setBuf m) hlegal hinv.count_le hlow
      _ = .next ((endCycle s (accumulate (eventBits s.e1 s.e0) s.appendBase)).setBuf m') := by
        rw [State.appendBase_setBuf hagree, hm', endCycle_setBuf]
  · exact ⟨m, step_of_rst_high (s := s.setBuf m) hlegal hhigh, nofun⟩

end Sys2Proof.Machine

/-! The statements on the words (spec/30_encoding.md): the selector-key map, the encoder, the operation a step runs, and
the placing of a word (log entry 8). -/

namespace Sys2Proof.Machine

/-! ### The two maps -/

/-- R74: a selector key is its mode bit and its count field. -/
theorem eq_selectorKey (sk : BitVec 8) : sk = selectorKey (sk.getLsbD 7) (sk.extractLsb' 0 7) := by
  apply BitVec.eq_of_getLsbD_eq
  intro i hi
  obtain hcount | rfl : i < 7 ∨ i = 7 := by omega
  · rw [selectorKey, BitVec.getLsbD_append, if_pos hcount, BitVec.getLsbD_extractLsb', Nat.zero_add,
      decide_eq_true hcount, Bool.true_and]
  · exact (selectorKey_fields _ _).1.symm

theorem selectorKey_inj {site site' : Bit} {n n' : Count} :
    selectorKey site n = selectorKey site' n' ↔ site = site' ∧ n = n' := by
  obtain ⟨hsite, hn⟩ := selectorKey_fields site n
  obtain ⟨hsite', hn'⟩ := selectorKey_fields site' n'
  refine ⟨fun h => ?_, fun ⟨h1, h2⟩ => by rw [h1, h2]⟩
  rw [h] at hsite hn
  exact ⟨hsite.symm.trans hsite', hn.symm.trans hn'⟩

/-- R75: every row before the last compares the count; `b` says whether its mask has the mode bit too. -/
theorem covers_selectorKey (b site site' : Bit) (n n' : Count) (i : Instr) :
    Row.covers ⟨selectorKey site' n', selectorKey b (BitVec.allOnes 7), i⟩ (selectorKey site n) =
      decide ((site && b) = (site' && b) ∧ n = n') := by
  have hmask : ∀ (a : Bit) (k : Count), selectorKey a k &&& selectorKey b (BitVec.allOnes 7) = selectorKey (a && b) k := by
    intro a k
    rw [selectorKey, selectorKey, BitVec.and_append, BitVec.and_allOnes, BitVec.ofBool_and_ofBool]
    rfl
  simp only [Row.covers, hmask, beq_eq_decide, selectorKey_inj]

/-- The five rows before the last, with match and mask written as keys. -/
theorem selectorRows_eq :
    selectorRows =
      [⟨selectorKey false 26#7, selectorKey true (BitVec.allOnes 7), .decW26n⟩,
       ⟨selectorKey true 26#7, selectorKey true (BitVec.allOnes 7), .decW26s⟩,
       ⟨selectorKey false 35#7, selectorKey false (BitVec.allOnes 7), .decW35⟩,
       ⟨selectorKey false 37#7, selectorKey false (BitVec.allOnes 7), .decW37⟩,
       ⟨selectorKey false 32#7, selectorKey false (BitVec.allOnes 7), .decW32⟩, ⟨0x00, 0x00, .decUnk⟩] := rfl

/-- Settles O2: a key whose count is a known length is in that length's row alone (two rows share the length 26, and
differ in the mode), any other key in the last row alone. -/
theorem selectorKeySelectsFirstRow : Obligations.SelectorKeySelectsFirstRow := by
  intro sk
  obtain ⟨site, n, rfl⟩ : ∃ site n, sk = selectorKey site n := ⟨_, _, eq_selectorKey sk⟩
  rw [decode, decodeSelect_selectorKey]
  obtain rfl | rfl | rfl | rfl | ⟨h26, h35, h37, h32⟩ :
      n = 26#7 ∨ n = 35#7 ∨ n = 37#7 ∨ n = 32#7 ∨ n ≠ 26#7 ∧ n ≠ 35#7 ∧ n ≠ 37#7 ∧ n ≠ 32#7 := by tauto
  · cases site <;> decide
  · cases site <;> decide
  · cases site <;> decide
  · cases site <;> decide
  · have hlast : Row.covers ⟨0x00, 0x00, .decUnk⟩ (selectorKey site n) = true := by simp [Row.covers]
    simp only [firstMatch, selectorRows_eq, List.take_succ_cons, List.take_zero, List.find?_cons, List.filter_cons,
      covers_selectorKey, hlast, h26, h35, h37, h32, and_false, decide_false]
    exact ⟨rfl, Nat.zero_le 1⟩

/-- Settles O3: the word the encoder picks for each operation lies in that operation's row. -/
theorem decodeOfEncode : Obligations.DecodeOfEncode := by
  intro i _
  cases i <;> rfl

/-- Settles O4: fifteen closed words. -/
theorem tableWordsDecode : Obligations.TableWordsDecode :=
  ⟨rfl, rfl, rfl, rfl, rfl, rfl, rfl, rfl, rfl, rfl, rfl, rfl, rfl, rfl, rfl⟩

/-! ### The operation of a step -/

/-- R76: with a synchronous `rst` a step is its operation and the end of the cycle. -/
theorem step_of_rst_synchronous {s : State} (h : s.pins.rst ≠ .changing) :
    step s = onNext (exec s.operation s) (endCycle s) :=
  if_pos (rstSynchronous_iff.mpr h)

/-- Settles O7: the operation of the cycle is the one its execute word names. -/
theorem stepRunsTheSelectedOperation : Obligations.StepRunsTheSelectedOperation :=
  fun _ => step_of_rst_synchronous

/-- Settles O8: the guard of U9 stands before everything else. -/
theorem unsynchronousResetIsRefused : Obligations.UnsynchronousResetIsRefused := fun _ hrst =>
  if_neg fun hsync => rstSynchronous_iff.mp hsync hrst

/-! ### Placing a word -/

/-- The forced front end of a line detects an edge exactly if it is asked to. -/
theorem LineFront.fell_force {n : Nat} (e : Bit) {l : LineFront} (hn : 0 < n) (hlen : l.stages.length = n) :
    (l.force n e).fell n = e := by
  unfold force
  split
  · rename_i h
    exact eq_of_beq h
  · cases e with
    | false => rfl
    | true =>
      have htake : (l.stages.take (n - 1)).length = n - 1 := by rw [List.length_take]; omega
      simp [fell, level, htake]

/-- Forcing `rst` writes the scheduled pin vectors only. -/
theorem forceRst_eq (b : Bit) (s : State) : forceRst b s = s.setInputs (forceRst b s).inputs := by
  unfold forceRst
  split <;> rfl

/-- The forced pin carries its bit. -/
theorem forceRst_pins_rst (b : Bit) (s : State) : (forceRst b s).pins.rst = Level.ofBit b := by
  unfold forceRst
  split <;> rfl

/-- Forcing the comparator writes the buffer, `count` and `elapsed` only. -/
theorem forceFrameEnd_eq (fe : Bit) (s : State) :
    forceFrameEnd fe s = ((s.setBuf (forceFrameEnd fe s).buf).setCount (forceFrameEnd fe s).count).setElapsed
      (forceFrameEnd fe s).elapsed := by
  unfold forceFrameEnd
  split
  · rfl
  · split
    · split <;> rfl
    · rfl

/-- The forced comparator answers its bit. -/
theorem forceFrameEnd_fe (fe : Bit) (s : State) : (forceFrameEnd fe s).fe = fe := by
  unfold forceFrameEnd
  split
  · rename_i h
    exact eq_of_beq h
  · cases fe with
    | false => rfl
    | true =>
      rw [if_pos rfl, State.fe_eq_true_iff]
      split
      · exact ⟨by simp [fillFrame], le_rfl⟩
      · rename_i hopen
        exact ⟨hopen, le_rfl⟩

/-- An open frame is completed as it is. -/
theorem forceFrameEnd_count_of_open {s : State} (hopen : s.count ≠ 0#7) : (forceFrameEnd true s).count = s.count := by
  unfold forceFrameEnd
  split
  · rfl
  · rw [if_pos rfl]
    rfl

section
variable (w : BitVec 4) (s : State)

/-- The placed `rst`: forcing the comparator and the front ends leaves the pins. -/
theorem placeExecute_pins_rst : (placeExecute w s).pins.rst = Level.ofBit (w.getLsbD 3) := by
  rw [← forceRst_pins_rst (w.getLsbD 3) s, placeExecute, forceFrameEnd_eq]
  rfl

theorem placeExecute_rst : (placeExecute w s).rst = w.getLsbD 3 := by
  rw [State.rst, placeExecute_pins_rst]
  cases w.getLsbD 3 <;> rfl

theorem placeExecute_rst_ne_changing : (placeExecute w s).pins.rst ≠ .changing := by
  rw [placeExecute_pins_rst]
  cases w.getLsbD 3 <;> decide

theorem placeExecute_fe : (placeExecute w s).fe = w.getLsbD 2 :=
  forceFrameEnd_fe _ _

theorem placeExecute_cfgSite : (placeExecute w s).cfgSite = s.cfgSite := by
  rw [placeExecute, forceFrameEnd_eq, forceRst_eq]
  rfl

end

/-- An open frame whose end is placed keeps its length. -/
theorem placeExecute_count_of_open {w : BitVec 4} {s : State} (hfe : w.getLsbD 2 = true) (hopen : s.count ≠ 0#7) :
    (placeExecute w s).count = s.count := by
  have hcount : (forceRst (w.getLsbD 3) s).count = s.count := by rw [forceRst_eq]; rfl
  rw [placeExecute, State.setLines_count, hfe, forceFrameEnd_count_of_open (by rwa [hcount]), hcount]

section
variable (w : BitVec 4) {s : State} (hsync : 0 < s.params.syncStages)
include hsync

theorem placeExecute_e0 (hchain : s.line0.stages.length = s.params.syncStages) :
    (placeExecute w s).e0 = w.getLsbD 0 := by
  rw [placeExecute, forceFrameEnd_eq, forceRst_eq]
  exact LineFront.fell_force _ hsync hchain

theorem placeExecute_e1 (hchain : s.line1.stages.length = s.params.syncStages) :
    (placeExecute w s).e1 = w.getLsbD 1 := by
  rw [placeExecute, forceFrameEnd_eq, forceRst_eq]
  exact LineFront.fell_force _ hsync hchain

/-- R72: the placed bits make up the word. -/
theorem placeExecute_xw (hchain0 : s.line0.stages.length = s.params.syncStages)
    (hchain1 : s.line1.stages.length = s.params.syncStages) : (placeExecute w s).xw = w := by
  rw [State.xw, placeExecute_rst, placeExecute_fe, placeExecute_e1 w hsync hchain1, placeExecute_e0 w hsync hchain0]
  obtain ⟨rst, fe, e1, e0, rfl⟩ := exists_executeWord w
  cases rst <;> cases fe <;> cases e1 <;> cases e0 <;> rfl

/-- A step after placing an execute word performs the operation of that word. -/
theorem step_placeExecute (hchain0 : s.line0.stages.length = s.params.syncStages)
    (hchain1 : s.line1.stages.length = s.params.syncStages) :
    step (placeExecute w s) = onNext (exec (decode (.execute w)) (placeExecute w s)) (endCycle (placeExecute w s)) := by
  rw [step_of_rst_synchronous (placeExecute_rst_ne_changing w s), State.operation, placeExecute_xw w hsync hchain0 hchain1]

end

/-- Log entry 8: a one-byte word below 16 is an execute word. -/
theorem withFetchWord_of_lt {w : Nat} (s : State) (hw : w < 16) :
    s.withFetchWord 8 w = placeExecute (BitVec.ofNat 4 w) s := by
  have hok : tableWordOk 8 w = true := by simp [tableWordOk]; omega
  rw [State.withFetchWord, tableWord, if_pos hok, if_neg (by decide), if_pos hw]
  rfl

/-- Log entry 8: any other one-byte word is a selector key. -/
theorem withFetchWord_of_le {w : Nat} (s : State) (hw : 16 ≤ w) (hbyte : w < 256) :
    s.withFetchWord 8 w = placeSelect (BitVec.ofNat 8 w) s := by
  have hok : tableWordOk 8 w = true := by simpa [tableWordOk] using hbyte
  rw [State.withFetchWord, tableWord, if_pos hok, if_neg (by decide), if_neg (by omega)]
  rfl

/-- Settles O5: each of the four bits is forced where the block forms it, and none of the four places disturbs another. -/
theorem placedExecuteWordIsPerformed : Obligations.PlacedExecuteWordIsPerformed := by
  intro s w hw hlegal hchain0 hchain1
  have hsync : 0 < s.params.syncStages := Nat.lt_of_lt_of_le Nat.two_pos hlegal.2.2.1
  rw [withFetchWord_of_lt s hw]
  exact ⟨placeExecute_xw _ hsync hchain0 hchain1, step_placeExecute _ hsync hchain0 hchain1⟩

/-- R74: a placed key whose count field is not 0 is the key of the cycle: forcing the end of an open frame writes neither
of its fields. -/
theorem placeSelect_sk {k : BitVec 8} (s : State) (hcount : k.extractLsb' 0 7 ≠ 0#7) : (placeSelect k s).sk = k := by
  have hn : (placeSelect k s).count = k.extractLsb' 0 7 := placeExecute_count_of_open rfl hcount
  have hsite : (placeSelect k s).cfgSite = k.getLsbD 7 := placeExecute_cfgSite _ _
  rw [State.sk, hn, hsite, ← eq_selectorKey]

/-- Settles O6: the fields of the key are forced, and a frame end without edges placed over them. -/
theorem placedKeySelectsItsRule : Obligations.PlacedKeySelectsItsRule := by
  intro s w hw hbyte hcount hlegal hchain0 hchain1
  have hsync : 0 < s.params.syncStages := Nat.lt_of_lt_of_le Nat.two_pos hlegal.2.2.1
  have hopen : (BitVec.ofNat 8 w).extractLsb' 0 7 ≠ 0#7 := by
    intro h
    have := congrArg BitVec.toNat h
    simp at this
    omega
  rw [withFetchWord_of_le s hw hbyte]
  exact ⟨by rw [State.decodeRule, placeSelect_sk s hopen], step_placeExecute (s := fillFrame _) _ hsync hchain0 hchain1⟩

end Sys2Proof.Machine

/-! The statements on the edge detectors (spec/40_capture.md section 1): what a line front end has seen is a window over
the samples, the newest first, with the stages before them behind. -/

namespace Sys2Proof.Machine

/-- R100: after any number of edges the chain holds the newest `n` of the samples and of the stages before them. -/
theorem LineFront.feed_stages {n : Nat} (ds : List Bit) {l : LineFront} (hlen : l.stages.length = n) :
    (l.feed n ds).stages = (ds.reverse ++ l.stages).take n := by
  induction ds generalizing l with
  | nil => simp [hlen]
  | cons d ds ih =>
    rw [feed_cons, ih (shift_length d hlen), shift_stages, List.reverse_cons, List.append_assoc, List.singleton_append,
      List.take_append, List.take_append, List.take_take, Nat.min_eq_left (Nat.sub_le _ _)]

/-- R25: the synchronised level is the sample of `n` edges ago. -/
theorem LineFront.feed_level {n : Nat} (ds : List Bit) {l : LineFront} (hn : 0 < n) (hlen : l.stages.length = n) :
    (l.feed n ds).level n = (ds.reverse ++ l.stages).getD (n - 1) true := by
  rw [level, feed_stages ds hlen, List.getD_eq_getElem?_getD, List.getD_eq_getElem?_getD,
    List.getElem?_take_of_lt (Nat.sub_lt hn Nat.one_pos)]

/-- R26: the previous level is the sample one edge older. -/
theorem LineFront.feed_prev {n : Nat} {ds : List Bit} {l : LineFront} (hn : 0 < n) (hlen : l.stages.length = n)
    (hds : ds ≠ []) : (l.feed n ds).prev = (ds.reverse ++ l.stages).getD n true := by
  obtain ⟨ds, d, rfl⟩ := List.eq_nil_or_concat' ds |>.resolve_left hds
  obtain ⟨k, rfl⟩ := Nat.exists_eq_add_of_le' hn
  rw [feed_append, feed_cons, feed_nil, shift_prev, feed_level ds hn hlen, List.reverse_append]
  rfl

/-- Settles O23: in the window, newest first, the further samples take the first `n - 1` places, so that `v` is the
synchronised level and `u` the previous one. -/
theorem eventIsDelayedSampleTransition : Obligations.EventIsDelayedSampleTransition := by
  intro n l before after u v hn hlen hafter
  have hplace : n - 1 = after.reverse.length := by rw [List.length_reverse]; omega
  have hwindow : (before ++ [u, v] ++ after).reverse ++ l.stages =
      after.reverse ++ (v :: u :: (before.reverse ++ l.stages)) := by simp
  have hlevel : (l.feed n (before ++ [u, v] ++ after)).level n = v := by
    rw [LineFront.feed_level _ hn hlen, hwindow, hplace, List.getD_append_right _ _ _ _ le_rfl, Nat.sub_self]
    rfl
  have hprev : (l.feed n (before ++ [u, v] ++ after)).prev = u := by
    rw [LineFront.feed_prev hn hlen (by simp), hwindow, show n = after.reverse.length + 1 by omega,
      List.getD_append_right _ _ _ _ (Nat.le_add_right _ 1), Nat.add_sub_cancel_left]
    rfl
  rw [LineFront.fell, hlevel, hprev]

/-- The window over `k` low samples after reset: low exactly at the `k` newest places. -/
theorem getD_replicate_low_append_high (n k i : Nat) :
    (List.replicate k false ++ List.replicate n true).getD i true = decide (k ≤ i) := by
  rcases Nat.lt_or_ge i k with hlow | hhigh
  · rw [List.getD_append _ _ _ _ (by simpa using hlow), List.getD_replicate _ hlow, decide_eq_false (by omega)]
  · rw [List.getD_append_right _ _ _ _ (by simpa using hhigh), decide_eq_true hhigh]
    by_cases h : i - k < n <;> simp [h]

/-- Settles O24: the synchronised level is low from `n` low samples on, the previous level until then still high. -/
theorem lowLineAtReleaseGivesOneEvent : Obligations.LowLineAtReleaseGivesOneEvent := by
  intro n k hn
  have hlen := LineFront.afterReset_length n
  have hlevel : ((LineFront.afterReset n).feed n (List.replicate k false)).level n = decide (k ≤ n - 1) := by
    rw [LineFront.feed_level _ hn hlen, List.reverse_replicate]
    exact getD_replicate_low_append_high n k (n - 1)
  have hprev : ((LineFront.afterReset n).feed n (List.replicate k false)).prev = decide (k ≤ n) := by
    cases k with
    | zero => exact (decide_eq_true (Nat.zero_le n)).symm
    | succ k =>
      rw [LineFront.feed_prev hn hlen (by simp), List.reverse_replicate]
      exact getD_replicate_low_append_high n (k + 1) n
  rw [LineFront.fell, hlevel, hprev, ← decide_not, ← Bool.decide_and]
  exact decide_eq_decide.mpr (by omega)

end Sys2Proof.Machine

/-! The statements on the operations of a cycle (spec/40_capture.md, 41_frame_end.md, 60_exceptions.md, 70_reset_and_hazards.md):
RESET, what an operation leaves unchanged, the bits dropped, and where a step leaves the frame. -/

namespace Sys2Proof.Machine

/-! ### RESET -/

/-- Settles O15: `resetAll` on a legal instance. -/
theorem resetCompletes : Obligations.ResetCompletes := fun _ hlegal => configured_of_legal _ hlegal

/-- Settles O16: of the power-up state a reset keeps the parameters and the buffer, which lists no cell. -/
theorem powerUpThenReset : Obligations.PowerUpThenReset := fun _ _ hlegal hrst =>
  ⟨_, step_of_rst_high hlegal hrst, rfl⟩

/-! ### Operations without frame end -/

/-- Settles O27: one argument for both lines, whose operations differ in the bit alone. -/
theorem recordOneBitCompletes : Obligations.RecordOneBitCompletes := by
  intro s hlegal
  have hstored : s.count.toNat < s.params.maxBits → ∀ v, captureCycle [v] s = .next { s with
      buf := s.buf.write s.count.toNat v, count := s.count + 1#7, elapsed := 1, outValid := false } := by
    intro hroom v
    rw [captureCycle_of_legal _ hlegal, accumulate_single_of_lt (s := s.setOutValid false) v hroom]
    rfl
  have hdropped : s.params.maxBits ≤ s.count.toNat → ∀ v, captureCycle [v] s =
      .next { s with elapsed := min (s.elapsed + 1) s.params.quietCycles, outValid := false } := by
    intro hfull v
    rw [captureCycle_of_legal _ hlegal, accumulate_single_of_full (s := s.setOutValid false) v hfull,
      accumulate_nil_of_full (s := s.setOutValid false) hlegal hfull]
    rfl
  exact ⟨fun hroom => ⟨hstored hroom false, hstored hroom true⟩, fun hfull => ⟨hdropped hfull false, hdropped hfull true⟩⟩

/-- The frame of a cycle without frame end: its bits go to the cells from `count` on. -/
theorem captureCycle_frame {bits : List Bit} {s t : State} (h : captureCycle bits s = .next t) :
    (t.params = s.params ∧ t.line0 = s.line0 ∧ t.line1 = s.line1 ∧ t.cfgSite = s.cfgSite ∧ t.out = s.out ∧
      t.inputs = s.inputs ∧ t.cycle = s.cycle ∧ t.outValid = false) ∧
    (∀ a, a < s.count.toNat ∨ s.count.toNat + bits.length ≤ a → t.buf.read a = s.buf.read a) ∧
    (bits = [] ∨ s.params.maxBits ≤ s.count.toNat → t.count = s.count ∧ ∀ a, t.buf.read a = s.buf.read a) := by
  obtain ⟨hlegal, rfl⟩ := captureCycle_eq_next_iff.mp h
  refine ⟨by simp, fun a ha => ?_, ?_⟩
  · rw [accumulate_buf]
    exact appendAll_read_of_not_appended bits (s := s.setOutValid false) hlegal ha
  · rintro (rfl | hfull)
    · exact ⟨rfl, fun _ => rfl⟩
    · rw [accumulate_count, accumulate_buf, appendAll_of_full (s := s.setOutValid false) bits hfull]
      exact ⟨rfl, fun _ => rfl⟩

/-- Settles O29: the operations differ in how many bits they append, none, one or two. -/
theorem captureFrame : Obligations.CaptureFrame := by
  intro i s t hi h
  obtain ⟨bits, hcycle, hnone, hone, htwo⟩ : ∃ bits, captureCycle bits s = .next t ∧ (i = .nop → bits = []) ∧
      (i = .rec0 ∨ i = .rec1 → bits.length = 1) ∧ (i = .rec01 → bits.length = 2) := by
    obtain rfl | rfl | rfl | rfl := hi
    · exact ⟨[], h, fun _ => rfl, nofun, nofun⟩
    · exact ⟨[false], h, nofun, fun _ => rfl, nofun⟩
    · exact ⟨[true], h, nofun, fun _ => rfl, nofun⟩
    · exact ⟨[false, true], h, nofun, nofun, fun _ => rfl⟩
  obtain ⟨⟨hparams, hline0, hline1, hsite, hout, hinputs, htime, hvalid⟩, hcells, hnothing⟩ := captureCycle_frame hcycle
  refine ⟨hparams, hline0, hline1, hsite, hout, hinputs, htime, hvalid, fun hi => hnothing (.inl (hnone hi)),
    fun hi a ha => hcells a ?_, fun hi a ha ha' => hcells a ?_, fun hfull => hnothing (.inr hfull)⟩
  · rw [hone hi]; omega
  · rw [htwo hi]; omega

/-! ### Operations with frame end -/

/-- The frame of a cycle with frame end: its bits go to the first cells. -/
theorem frameEndCycle_frame {bits : List Bit} {s t : State} (h : frameEndCycle bits s = .next t) :
    (t.params = s.params ∧ t.line0 = s.line0 ∧ t.line1 = s.line1 ∧ t.cfgSite = s.cfgSite ∧
      t.inputs = s.inputs ∧ t.cycle = s.cycle ∧ t.outValid = true) ∧
    ∀ a, bits.length ≤ a → t.buf.read a = s.buf.read a := by
  obtain ⟨hlegal, -, rfl⟩ := frameEndCycle_eq_next_iff.mp h
  refine ⟨by simp, fun a ha => ?_⟩
  rw [accumulate_buf]
  exact appendAll_read_of_not_appended bits (s := frameClosed s) hlegal (.inr (by simpa using ha))

/-- Settles O37: the operations differ in how many bits they append, none, one or two. -/
theorem frameEndFrame : Obligations.FrameEndFrame := by
  intro i s t hi h
  obtain ⟨bits, hcycle, hnone, hone, htwo⟩ : ∃ bits, frameEndCycle bits s = .next t ∧ (i = .fend → bits.length = 0) ∧
      (i = .fendRec0 ∨ i = .fendRec1 → bits.length = 1) ∧ (i = .fendRec01 → bits.length = 2) := by
    obtain rfl | rfl | rfl | rfl := hi
    · exact ⟨[], h, fun _ => rfl, nofun, nofun⟩
    · exact ⟨[false], h, nofun, fun _ => rfl, nofun⟩
    · exact ⟨[true], h, nofun, fun _ => rfl, nofun⟩
    · exact ⟨[false, true], h, nofun, nofun, fun _ => rfl⟩
  obtain ⟨⟨hparams, hline0, hline1, hsite, hinputs, htime, hvalid⟩, hcells⟩ := frameEndCycle_frame hcycle
  refine ⟨hparams, hline0, hline1, hsite, hinputs, htime, hvalid, fun hi a => hcells a ?_, fun hi a ha => hcells a ?_,
    fun hi a ha ha' => hcells a ?_⟩
  · rw [hnone hi]; omega
  · rw [hone hi]; omega
  · rw [htwo hi]; omega

/-! ### Dropped bits -/

/-- A cycle without frame end depends on its bits by what they accumulate to. -/
theorem captureCycle_congr {bits bits' : List Bit} {s : State}
    (h : accumulate bits (s.setOutValid false) = accumulate bits' (s.setOutValid false)) :
    captureCycle bits s = captureCycle bits' s := by
  rw [captureCycle, h, captureCycle]

/-- So does a cycle with frame end; where the decode stops, the bits play no part. -/
theorem frameEndCycle_congr {bits bits' : List Bit} {s : State}
    (h : accumulate bits (frameClosed s) = accumulate bits' (frameClosed s)) :
    frameEndCycle bits s = frameEndCycle bits' s := by
  simp only [frameEndCycle, frameEnd, decodeFrame, loadDecoded]
  split
  · exact congrArg (fun u => configured s (.next u)) h
  · rfl

/-- Settles O56: bits without room leave the accumulation as it is without them; after a frame end a one-cell buffer has
room for one bit. -/
theorem droppedBitIsNoEdge : Obligations.DroppedBitIsNoEdge := fun s hlegal =>
  ⟨fun hfull =>
    ⟨captureCycle_congr (accumulate_single_of_full (s := s.setOutValid false) false hfull),
      captureCycle_congr (accumulate_single_of_full (s := s.setOutValid false) true hfull),
      captureCycle_congr (accumulate_pair_of_full (s := s.setOutValid false) false true hfull)⟩,
    fun hlast => captureCycle_congr (accumulate_pair_of_last (s := s.setOutValid false) false true hlegal hlast),
    fun hone => frameEndCycle_congr (accumulate_pair_of_last (s := frameClosed s) false true hlegal hone.symm)⟩

/-! ### Conditions -/

/-- R201: the bits of a cycle that find no room. -/
theorem bufferOverflow_mem_overflows {s : State} {k : Nat} {bits : List Bit} {line : Bit} :
    Condition.bufferOverflow line ∈ overflows s k bits ↔ line ∈ bits.drop (s.params.maxBits - k) := by
  simp only [overflows, droppedBits_eq_drop, List.mem_map, Condition.bufferOverflow.injEq, exists_eq_right]

theorem unknownFormat_notMem_overflows (s : State) (k : Nat) (bits : List Bit) :
    Condition.unknownFormat ∉ overflows s k bits := by
  simp [overflows]

theorem bufferOverflow_notMem_unknowns (s : State) (line : Bit) : Condition.bufferOverflow line ∉ unknowns s := by
  unfold unknowns
  split <;> simp

/-- R202: a length that matches no format. -/
theorem unknownFormat_mem_unknowns {s : State} :
    Condition.unknownFormat ∈ unknowns s ↔ s.count ≠ 26#7 ∧ s.count ≠ 32#7 ∧ s.count ≠ 35#7 ∧ s.count ≠ 37#7 := by
  simp [unknowns, unknownLength, and_assoc]

theorem mem_drop_single {v w : Bit} {n : Nat} : w ∈ [v].drop n ↔ n = 0 ∧ w = v := by
  cases n <;> simp

theorem mem_drop_both {w : Bit} {n : Nat} : w ∈ [false, true].drop n ↔ n = 0 ∨ n = 1 ∧ w = true := by
  obtain _ | _ | n := n
  · cases w <;> simp
  · simp
  · simp

/-- Settles O55: an operation without frame end appends from `count` on, one with frame end from 0 on, where only a
one-cell buffer is too short. -/
theorem conditionsRaised : Obligations.ConditionsRaised := by
  intro i s hlegal hcount
  have hcell : 1 ≤ s.params.maxBits := hlegal.1.1
  have hfull : s.params.maxBits - s.count.toNat = 0 ↔ s.count.toNat = s.params.maxBits := by omega
  have hlast : s.params.maxBits - s.count.toNat = 1 ↔ s.count.toNat + 1 = s.params.maxBits := by omega
  have hpos : s.params.maxBits ≠ 0 := by omega
  constructor
  · intro line
    cases i <;> simp [conditions, bufferOverflow_mem_overflows, bufferOverflow_notMem_unknowns, mem_drop_single,
      mem_drop_both, hfull, hlast, hpos]
  · cases i <;> simp [conditions, unknownFormat_notMem_overflows, unknownFormat_mem_unknowns]

/-! ### Where a step leaves the frame -/

/-- Settles O38: the appends start from an empty frame after a frame end, and from `count` otherwise. -/
theorem stepAppendsEventsInOrder : Obligations.StepAppendsEventsInOrder := by
  intro s hinv hrst
  have hlegal : s.appendBase.params.Legal := by simpa using hinv.params_legal
  have hbase : s.appendBase.count.toNat = if s.fe then 0 else s.count.toNat := by
    rw [State.appendBase_count]
    split <;> rfl
  refine ⟨_, hinv.step_of_rst_low hrst, ?_⟩
  rw [← hbase, endCycle_count, endCycle_buf, accumulate_count, accumulate_buf]
  refine ⟨?_, fun k hk hroom => ?_, fun a ha => ?_⟩
  · rw [appendAll_count _ hlegal hinv.appendBase.count_le, State.appendBase_params]
  · exact appendAll_lookup_new _ hlegal hk (by simpa using hroom)
  · rw [← State.appendBase_buf s]
    rcases ha with hbelow | hbeyond | houtside
    · exact appendAll_lookup_old _ hlegal hbelow
    · exact appendAll_lookup_beyond _ hlegal hbeyond
    · exact appendAll_lookup_outside _ (by simpa using houtside)

/-! ### The phases -/

theorem phase_eq_quiescing_iff {s : State} : s.phase = .quiescing ↔ s.fe = true := by
  rw [State.fe_eq_true_iff, State.phase]
  split
  · simp_all
  · split <;> simp_all

theorem phase_eq_capturing_iff {s : State} :
    s.phase = .capturing ↔ s.count ≠ 0#7 ∧ s.elapsed < s.params.quietCycles := by
  rw [State.phase]
  split
  · simp_all
  · split <;> simp_all

/-- R30: the phase of a frame that is not empty goes by the timer. -/
theorem phase_of_open {s : State} (h : s.count ≠ 0#7) :
    s.phase = if s.elapsed < s.params.quietCycles then .capturing else .quiescing :=
  if_neg h

theorem endCycle_phase (s t : State) : (endCycle s t).phase = t.phase := by
  simp [State.phase]

/-- A cycle stores a bit if an edge falls and the frame, after a frame end the next one, has room. -/
theorem appendBase_stored_iff {s : State} (hlegal : s.params.Legal) :
    (appendAll (eventBits s.e1 s.e0) s.appendBase).2 = true ↔
      (s.e0 = true ∨ s.e1 = true) ∧ (s.phase = .quiescing ∨ s.count.toNat < s.params.maxBits) := by
  have hcell : 0 < s.params.maxBits := hlegal.1.1
  rw [appendAll_stored, eventBits_isEmpty, State.appendBase_count, State.appendBase_params, phase_eq_quiescing_iff]
  cases s.fe <;> simp [hcell]

/-- R142: the phase after a cycle that stores a bit: the timer is 1. -/
theorem accumulate_phase_of_stored {bits : List Bit} {s : State} (hlegal : s.params.Legal)
    (h : (appendAll bits s).2 = true) :
    (accumulate bits s).phase = if 1 < s.params.quietCycles then .capturing else .quiescing := by
  have hopen : (accumulate bits s).count ≠ 0#7 := by
    rw [accumulate_count]
    exact appendAll_count_ne_zero hlegal h
  rw [phase_of_open hopen, accumulate_params, accumulate_elapsed, h, elapsedNext_appended]

/-- R142: the phase after a cycle that stores no bit: an empty frame stays empty, and for an open one time passes. -/
theorem accumulate_phase_of_not_stored {bits : List Bit} {s : State} (h : (appendAll bits s).2 = false) :
    (accumulate bits s).phase =
      if s.count = 0#7 then .idle else if s.elapsed + 1 < s.params.quietCycles then .capturing else .quiescing := by
  rw [State.phase, accumulate_params, accumulate_count, accumulate_elapsed, h, appendAll_of_not_stored h]
  split
  · rfl
  · rename_i hopen
    simp only [elapsedNext_running _ _ hopen, min_lt_iff, lt_irrefl, or_false]

/-- Settles O40: a stored bit restarts the timer; without one a frame end leaves no frame, and an open frame's timer
advances. -/
theorem lifecycleTransitions : Obligations.LifecycleTransitions := by
  intro s hinv hrst
  have hlegal := hinv.params_legal
  refine ⟨_, hinv.step_of_rst_low hrst, ?_, ?_⟩
  · rw [State.decoded, endCycle_outValid, accumulate_outValid, State.appendBase_outValid, ← Bool.decide_coe s.fe]
    exact decide_eq_decide.mpr phase_eq_quiescing_iff.symm
  · rw [endCycle_phase]
    simp only [← appendBase_stored_iff hlegal]
    cases hstored : (appendAll (eventBits s.e1 s.e0) s.appendBase).2 with
    | true =>
      rw [accumulate_phase_of_stored (by simpa using hlegal) hstored, State.appendBase_params]
      rfl
    | false =>
      rw [accumulate_phase_of_not_stored hstored, State.appendBase_count, State.appendBase_elapsed,
        State.appendBase_params, if_neg Bool.false_ne_true]
      by_cases hcapturing : s.phase = .capturing
      · obtain ⟨hopen, htime⟩ := phase_eq_capturing_iff.mp hcapturing
        have hfe : s.fe = false := State.fe_eq_false_iff.mpr (.inr htime)
        simp [hcapturing, hfe, hopen]
      · have hempty : (if s.fe then 0#7 else s.count) = 0#7 := by
          cases hfe : s.fe with
          | true => rfl
          | false =>
            by_contra hopen
            exact hcapturing (phase_eq_capturing_iff.mpr ⟨hopen, (State.fe_eq_false_iff.mp hfe).resolve_left hopen⟩)
        rw [if_pos hempty, if_neg hcapturing]

end Sys2Proof.Machine

/-! The statements on runs at core level (spec/00_scope.md section 6, 41_frame_end.md section 4, 70_reset_and_hazards.md
section 3): what one core-level cycle does to the core registers, and the silences and frames made of such cycles. -/

namespace Sys2Proof.Machine

/-! ### Pin level and core level -/

/-- The appends of a cycle read no pin. -/
theorem appendAll_setInputs (bits : List Bit) (s : State) (ps : List Pins) :
    appendAll bits (s.setInputs ps) = ((appendAll bits s).1.setInputs ps, (appendAll bits s).2) := by
  induction bits generalizing s with
  | nil => rfl
  | cons v vs ih =>
    have hfirst : appendBit v (s.setInputs ps) = ((appendBit v s).1.setInputs ps, (appendBit v s).2) := by
      rcases appendBit_cases v s with ⟨hroom, he⟩ | ⟨hfull, he⟩
      · rw [he, appendBit_of_lt (s := s.setInputs ps) v hroom]
        rfl
      · rw [he, appendBit_of_full (s := s.setInputs ps) v hfull]
    simp only [appendAll, hfirst, ih]

theorem accumulate_setInputs (bits : List Bit) (s : State) (ps : List Pins) :
    accumulate bits (s.setInputs ps) = (accumulate bits s).setInputs ps := by
  rw [accumulate, appendAll_setInputs]
  rfl

theorem State.appendBase_setInputs (s : State) (ps : List Pins) :
    (s.setInputs ps).appendBase = s.appendBase.setInputs ps := by
  cases hfe : s.fe with
  | false => rw [appendBase_of_not_fe hfe, appendBase_of_not_fe (s := s.setInputs ps) hfe]; rfl
  | true => rw [appendBase_of_fe hfe, appendBase_of_fe (s := s.setInputs ps) hfe]; rfl

/-- Using up a presented pin vector leaves the schedule as it was before it. -/
theorem tick_setInputs_cons {s : State} {ps : List Pins} (p : Pins) (h : s.inputs = ps) :
    (s.setInputs (p :: ps)).tick = { s with cycle := s.cycle + 1 } := by
  subst h
  rfl

/-- A core-level cycle with `rst = 0` accumulates the bits of its input word, and touches no front end. -/
theorem coreCycle_of_not_rst {c : CoreInput} {s : State} (hlegal : s.params.Legal)
    (hcells : s.fe = true → operandCells s.count ≤ s.params.maxBits) (hrst : c.rst = false) :
    coreCycle c s = .next { accumulate (eventBits c.e1 c.e0) s.appendBase with cycle := s.cycle + 1 } := by
  have hnext : exec (decode (.execute (executeWord c.rst s.fe c.e1 c.e0))) (s.present c.pins) =
      .next (accumulate (eventBits c.e1 c.e0) (s.present c.pins).appendBase) := by
    rw [hrst, decode, exec_decodeExecute, if_neg Bool.false_ne_true]
    cases hfe : s.fe with
    | false =>
      rw [if_neg Bool.false_ne_true, State.appendBase_of_not_fe (s := s.present c.pins) hfe]
      exact captureCycle_of_legal (s := s.present c.pins) _ hlegal
    | true =>
      rw [if_pos rfl, State.appendBase_of_fe (s := s.present c.pins) hfe]
      exact frameEndCycle_eq_next_iff.mpr ⟨hlegal, hcells hfe, rfl⟩
  rw [coreCycle, hnext, onNext_next, State.present, State.appendBase_setInputs, accumulate_setInputs,
    tick_setInputs_cons _ (by simp), accumulate_cycle, State.appendBase_cycle]

/-- A core-level cycle with `rst = 1` is a reset. -/
theorem coreCycle_of_rst {c : CoreInput} {s : State} (hlegal : s.params.Legal) (hrst : c.rst = true) :
    coreCycle c s = .next { resetAll c.site s with cycle := s.cycle + 1 } := by
  have hnext : exec (decode (.execute (executeWord c.rst s.fe c.e1 c.e0))) (s.present c.pins) =
      .next (resetAll (s.present c.pins).siteMode (s.present c.pins)) := by
    rw [hrst, decode, exec_decodeExecute, if_pos rfl]
    exact configured_of_legal (s := s.present c.pins) _ hlegal
  have hsite : (s.present c.pins).siteMode = c.site := by
    cases h : c.site <;> simp [State.siteMode, State.pins, State.present, CoreInput.pins, h, Level.ofBit, sampleLevel]
  rw [coreCycle, hnext, hsite]
  rfl

/-- Settles O58: both levels reset, or accumulate the same bits from the same registers; they differ in the front ends
and the model's input fields. -/
theorem pinLevelRefinesCoreLevel : Obligations.PinLevelRefinesCoreLevel := by
  intro s t h
  obtain ⟨hlegal, ⟨hlow, hcells, rfl⟩ | ⟨hhigh, rfl⟩⟩ := step_next_cases h
  · have hrst : s.coreInput.rst = false := by simp [State.coreInput, State.rst, hlow]
    refine ⟨_, coreCycle_of_not_rst hlegal hcells hrst, ?_⟩
    constructor <;> simp [State.coreInput]
  · have hrst : s.coreInput.rst = true := by simp [State.coreInput, State.rst, hhigh]
    exact ⟨_, coreCycle_of_rst hlegal hrst, rfl, rfl, rfl, rfl, rfl, rfl, rfl⟩

/-! ### One core-level cycle -/

theorem Stmt.nop_input_bits : eventBits Stmt.nop.input.e1 Stmt.nop.input.e0 = [] := rfl

theorem Stmt.ofBit_input_bits (b : Bit) : eventBits (Stmt.ofBit b).input.e1 (Stmt.ofBit b).input.e0 = [b] := by
  cases b <;> rfl

theorem Stmt.ofBit_input_rst (b : Bit) : (Stmt.ofBit b).input.rst = false := by
  cases b <;> rfl

/-- What `n` cycles without a stored bit, a frame end or a reset make of a state with an open frame, while the quiet
interval lasts. -/
def State.afterWaiting (s : State) (n : Nat) : State :=
  { s with elapsed := s.elapsed + n, outValid := if n = 0 then s.outValid else false, cycle := s.cycle + n }

theorem State.afterWaiting_add (s : State) (m n : Nat) : (s.afterWaiting m).afterWaiting n = s.afterWaiting (m + n) := by
  cases n <;> simp [afterWaiting, Nat.add_assoc]

theorem State.fe_afterWaiting_iff {s : State} {n : Nat} (hopen : s.count ≠ 0#7) :
    (s.afterWaiting n).fe = true ↔ s.params.quietCycles ≤ s.elapsed + n :=
  State.fe_eq_true_iff.trans (and_iff_right hopen)

/-- In Capturing, a cycle that stores no bit, for want of an edge or of room, lets time pass. -/
theorem coreCycle_of_capturing {c : CoreInput} {s : State} (hlegal : s.params.Legal) (hrst : c.rst = false)
    (hopen : s.count ≠ 0#7) (htime : s.elapsed < s.params.quietCycles)
    (hnothing : c = Stmt.nop.input ∨ s.params.maxBits ≤ s.count.toNat) :
    coreCycle c s = .next (s.afterWaiting 1) := by
  have hfe : s.fe = false := State.fe_eq_false_iff.mpr (.inr htime)
  have hnext : accumulate (eventBits c.e1 c.e0) s.appendBase =
      (s.setOutValid false).setElapsed (s.elapsed + 1) := by
    have hstored : appendAll (eventBits c.e1 c.e0) (s.setOutValid false) = (s.setOutValid false, false) := by
      rcases hnothing with rfl | hfull
      · rfl
      · exact appendAll_of_full _ hfull
    rw [State.appendBase_of_not_fe hfe, accumulate, hstored]
    simp only [State.setOutValid_count, elapsedNext_running _ _ hopen, State.setOutValid_params,
      State.setOutValid_elapsed, Nat.min_eq_left htime]
  rw [coreCycle_of_not_rst hlegal (by simp [hfe]) hrst, hnext]
  rfl

/-- A bit of a cycle without frame end, with room. -/
theorem coreCycle_ofBit_of_room {s : State} (b : Bit) (hlegal : s.params.Legal) (hfe : s.fe = false)
    (hroom : s.count.toNat < s.params.maxBits) :
    coreCycle (Stmt.ofBit b).input s = .next { s with
      buf := s.buf.write s.count.toNat b, count := s.count + 1#7, elapsed := 1, outValid := false
      cycle := s.cycle + 1 } := by
  rw [coreCycle_of_not_rst hlegal (by simp [hfe]) (Stmt.ofBit_input_rst b), State.appendBase_of_not_fe hfe,
    Stmt.ofBit_input_bits, accumulate_single_of_lt (s := s.setOutValid false) b hroom]
  rfl

/-- In Quiescing, a cycle without an edge ends the frame. -/
theorem coreCycle_nop_of_fe {s : State} (hlegal : s.params.Legal) (hcount : s.count.toNat ≤ s.params.maxBits)
    (hfe : s.fe = true) : coreCycle Stmt.nop.input s = .next { frameClosed s with cycle := s.cycle + 1 } := by
  rw [coreCycle_of_not_rst hlegal (fun _ => (operandCells_le _).trans hcount) rfl, State.appendBase_of_fe hfe,
    Stmt.nop_input_bits, accumulate_nil, frameClosed_count, elapsedNext_empty]
  rfl

/-- In Quiescing, a bit starts the next frame. -/
theorem coreCycle_ofBit_of_fe {s : State} (b : Bit) (hlegal : s.params.Legal)
    (hcount : s.count.toNat ≤ s.params.maxBits) (hfe : s.fe = true) :
    coreCycle (Stmt.ofBit b).input s = .next { frameClosed s with
      buf := s.buf.write 0 b, count := 1#7, elapsed := 1, cycle := s.cycle + 1 } := by
  have hcell : (frameClosed s).count.toNat < (frameClosed s).params.maxBits := by
    simpa using Nat.lt_of_succ_le hlegal.1.1
  rw [coreCycle_of_not_rst hlegal (fun _ => (operandCells_le _).trans hcount) (Stmt.ofBit_input_rst b),
    State.appendBase_of_fe hfe, Stmt.ofBit_input_bits, accumulate_single_of_lt b hcell]
  rfl

/-! ### Runs -/

theorem runCore_cons {c : CoreInput} {cs : List CoreInput} {s t : State} (h : coreCycle c s = .next t) :
    runCore (c :: cs) s = runCore cs t := by
  rw [runCore, h]

theorem runCore_append {cs ds : List CoreInput} {s t : State} (h : runCore cs s = .next t) :
    runCore (cs ++ ds) s = runCore ds t := by
  induction cs generalizing s with
  | nil =>
    cases h
    rfl
  | cons c cs ih =>
    cases hc : coreCycle c s with
    | next u =>
      rw [List.cons_append, runCore_cons hc]
      rw [runCore_cons hc] at h
      exact ih h
    | fault r =>
      rw [runCore, hc] at h
      cases h
    | refused r =>
      rw [runCore, hc] at h
      cases h

/-- The last cycle of a run. -/
theorem runCore_concat {cs : List CoreInput} {c : CoreInput} {s t u : State} (h : runCore cs s = .next t)
    (hc : coreCycle c t = .next u) : runCore (cs ++ [c]) s = .next u := by
  rw [runCore_append h, runCore_cons hc, runCore]

/-- In Capturing, cycles that store no bit, up to the end of the quiet interval. -/
theorem runCore_of_capturing {cs : List CoreInput} {s : State} (hlegal : s.params.Legal) (hopen : s.count ≠ 0#7)
    (hrst : ∀ c ∈ cs, c.rst = false) (htime : s.elapsed + cs.length ≤ s.params.quietCycles)
    (hnothing : ∀ c ∈ cs, c = Stmt.nop.input ∨ s.params.maxBits ≤ s.count.toNat) :
    runCore cs s = .next (s.afterWaiting cs.length) := by
  induction cs generalizing s with
  | nil => rfl
  | cons c cs ih =>
    rw [List.length_cons] at htime
    have hc := coreCycle_of_capturing hlegal (hrst c List.mem_cons_self) hopen (by omega) (hnothing c List.mem_cons_self)
    have hrun := ih (s := s.afterWaiting 1) hlegal hopen (fun d hd => hrst d (List.mem_cons_of_mem c hd))
      (by simp only [State.afterWaiting]; omega) (fun d hd => hnothing d (List.mem_cons_of_mem c hd))
    rw [runCore_cons hc, hrun, State.afterWaiting_add, List.length_cons, Nat.add_comm]

/-- In Capturing, silence. -/
theorem runCore_nops_of_capturing {s : State} (n : Nat) (hlegal : s.params.Legal) (hopen : s.count ≠ 0#7)
    (htime : s.elapsed + n ≤ s.params.quietCycles) :
    runCore (List.replicate n Stmt.nop.input) s = .next (s.afterWaiting n) := by
  have h := runCore_of_capturing (cs := List.replicate n Stmt.nop.input) hlegal hopen
    (fun c hc => by rw [List.eq_of_mem_replicate hc]; rfl) (by simpa using htime)
    (fun c hc => .inl (List.eq_of_mem_replicate hc))
  rwa [List.length_replicate] at h

/-- In Idle, silence: nothing but the fall of `out_valid`. -/
theorem runCore_nops_of_idle {s : State} (n : Nat) (hlegal : s.params.Legal) (hempty : s.count = 0#7) :
    ∃ t, runCore (List.replicate n Stmt.nop.input) s = .next t ∧ t.params.Legal ∧ t.count = 0#7 ∧ t.out = s.out := by
  refine runCore_of_invariant (P := fun u => u.params.Legal ∧ u.count = 0#7 ∧ u.out = s.out) ?_ ⟨hlegal, hempty, rfl⟩
  rintro c hc u ⟨hlegal, hempty, hout⟩
  obtain rfl := List.eq_of_mem_replicate hc
  have hfe : u.fe = false := fe_of_count_zero hempty
  refine ⟨_, coreCycle_of_not_rst hlegal (by simp [hfe]) rfl, ?_⟩
  rw [State.appendBase_of_not_fe hfe]
  exact ⟨hlegal, hempty, hout⟩

/-! ### The latency of the frame end -/

/-- Settles O57: in a full buffer no cycle without reset stores a bit. -/
theorem fullBufferFrameStillEnds : Obligations.FullBufferFrameStillEnds := by
  intro s cs hlegal hfull htime hrst hlen
  have hopen := count_ne_zero_of_full hlegal hfull.ge
  refine ⟨_, runCore_of_capturing hlegal hopen hrst (by omega) (fun _ _ => .inr hfull.ge), rfl, rfl, rfl, ?_, ?_⟩
  · rw [Nat.add_comm, ← htime]
    rfl
  · rw [State.fe_afterWaiting_iff hopen]
    omega

/-- Silence to the end of the quiet interval and one cycle more: the frame is decoded and cleared. -/
theorem runCore_nops_to_frame_end {s : State} {n : Nat} (hlegal : s.params.Legal) (hopen : s.count ≠ 0#7)
    (hcount : s.count.toNat ≤ s.params.maxBits) (htime : s.elapsed + n = s.params.quietCycles) :
    ∃ t, runCore (List.replicate (n + 1) Stmt.nop.input) s = .next t ∧ t.params = s.params ∧ t.buf = s.buf ∧
      t.count = 0#7 ∧ t.elapsed = 0 ∧ t.outValid = true ∧ t.out = decodeResult s.buf s.count s.cfgSite := by
  have hwait := runCore_nops_of_capturing n hlegal hopen htime.le
  have hend := coreCycle_nop_of_fe (s := s.afterWaiting n) hlegal hcount ((State.fe_afterWaiting_iff hopen).mpr htime.ge)
  rw [List.replicate_succ']
  exact ⟨_, runCore_concat hwait hend, rfl, rfl, rfl, rfl, rfl, rfl⟩

section
variable {s : State} (hlegal : s.params.Legal) (hopen : s.count ≠ 0#7) (hcount : s.count.toNat ≤ s.params.maxBits)
  (htime : s.elapsed = 1)
include hlegal hopen htime

/-- A bit before the end of the quiet interval joins the frame. -/
theorem runCore_nops_then_bit_of_early (b : Bit) {g : Nat} (hpos : 1 ≤ g) (hg : g < s.params.quietCycles)
    (hroom : s.count.toNat < s.params.maxBits) :
    ∃ t, runCore (List.replicate (g - 1) Stmt.nop.input ++ [(Stmt.ofBit b).input]) s = .next t ∧
      t.count = s.count + 1#7 ∧ t.buf.lookup s.count.toNat = some b ∧ t.outValid = false := by
  have hwait := runCore_nops_of_capturing (s := s) (g - 1) hlegal hopen (by omega)
  have hfe : (s.afterWaiting (g - 1)).fe = false := by
    rw [← Bool.not_eq_true, State.fe_afterWaiting_iff hopen]
    omega
  exact ⟨_, runCore_concat hwait (coreCycle_ofBit_of_room b hlegal hfe hroom), rfl, Memory.lookup_write_same _ _ _, rfl⟩

include hcount

/-- A bit at the end of the quiet interval comes with the frame end. -/
theorem runCore_nops_then_bit_of_on_time (b : Bit) :
    ∃ t, runCore (List.replicate (s.params.quietCycles - 1) Stmt.nop.input ++ [(Stmt.ofBit b).input]) s = .next t ∧
      t.count = 1#7 ∧ t.buf.lookup 0 = some b ∧ t.out = decodeResult s.buf s.count s.cfgSite ∧ t.outValid = true := by
  have hquiet : 1 ≤ s.params.quietCycles := hlegal.2.1.1
  have hwait := runCore_nops_of_capturing (s := s) (s.params.quietCycles - 1) hlegal hopen (by omega)
  have hfe : (s.afterWaiting (s.params.quietCycles - 1)).fe = true := (State.fe_afterWaiting_iff hopen).mpr (by omega)
  exact ⟨_, runCore_concat hwait (coreCycle_ofBit_of_fe b hlegal hcount hfe), rfl, Memory.lookup_write_same _ _ _, rfl, rfl⟩

/-- A later bit finds the frame ended and the block in Idle. -/
theorem runCore_nops_then_bit_of_late (b : Bit) {g : Nat} (hg : s.params.quietCycles < g) :
    ∃ t, runCore (List.replicate (g - 1) Stmt.nop.input ++ [(Stmt.ofBit b).input]) s = .next t ∧
      t.count = 1#7 ∧ t.buf.lookup 0 = some b ∧ t.out = decodeResult s.buf s.count s.cfgSite ∧ t.outValid = false := by
  have hquiet : 1 ≤ s.params.quietCycles := hlegal.2.1.1
  obtain ⟨u, hend, huparams, -, hucount, -, -, huout⟩ :=
    runCore_nops_to_frame_end (n := s.params.quietCycles - 1) hlegal hopen hcount (by omega)
  obtain ⟨v, hidle, hvlegal, hvcount, hvout⟩ :=
    runCore_nops_of_idle (g - 1 - s.params.quietCycles) (huparams ▸ hlegal) hucount
  have hsilence : runCore (List.replicate (g - 1) Stmt.nop.input) s = .next v := by
    rw [show g - 1 = (s.params.quietCycles - 1 + 1) + (g - 1 - s.params.quietCycles) by omega, List.replicate_add,
      runCore_append hend, hidle]
  have hbit := coreCycle_ofBit_of_room b hvlegal (fe_of_count_zero hvcount)
    (by rw [hvcount]; exact Nat.lt_of_succ_le hvlegal.1.1)
  rw [hvcount] at hbit
  exact ⟨_, runCore_concat hsilence hbit, rfl, Memory.lookup_write_same _ _ _, hvout.trans huout, rfl⟩

end

/-- Settles O39: the comparator watches a timer that counts the silence, and a bit comes before the end of the quiet
interval, with it, or after it. -/
theorem frameEndLatency : Obligations.FrameEndLatency := by
  intro s hlegal hopen hcount htime
  have hquiet : 1 ≤ s.params.quietCycles := hlegal.2.1.1
  refine ⟨fun n hn => ?_, ?_, fun b g hpos hg hroom => runCore_nops_then_bit_of_early hlegal hopen htime b hpos hg hroom,
    fun b g hg => ?_⟩
  · refine ⟨_, runCore_nops_of_capturing n hlegal hopen (by omega), rfl, rfl, ?_, rfl, ?_⟩
    · rw [Nat.add_comm, ← htime]
      rfl
    · rw [State.fe_afterWaiting_iff hopen]
      omega
  · obtain ⟨t, hrun, -, -, hempty, -, hvalid, hout⟩ :=
      runCore_nops_to_frame_end (n := s.params.quietCycles - 1) hlegal hopen hcount (by omega)
    rw [Nat.sub_add_cancel hquiet] at hrun
    exact ⟨t, hrun, hvalid, hout, hempty⟩
  · obtain rfl | hlate := hg.eq_or_lt
    · obtain ⟨t, hrun, hone, hcell, hout, hvalid⟩ := runCore_nops_then_bit_of_on_time hlegal hopen hcount htime b
      exact ⟨t, hrun, hone, hcell, hout, iff_of_true hvalid rfl⟩
    · obtain ⟨t, hrun, hone, hcell, hout, hvalid⟩ := runCore_nops_then_bit_of_late hlegal hopen hcount htime b hlate
      exact ⟨t, hrun, hone, hcell, hout, iff_of_false (by simp [hvalid]) hlate.ne'⟩

/-! ### A whole frame -/

/-- What the bits `bs`, each with `gap` cycles without an edge after it, make of a state `s` in which no frame ends: they
stand in the cells from `count` on, and the timer counts the last gap. -/
structure State.Collected (s : State) (bs : List Bit) (gap : Nat) (t : State) : Prop where
  params : t.params = s.params
  cfgSite : t.cfgSite = s.cfgSite
  count : t.count.toNat = s.count.toNat + bs.length
  elapsed : t.elapsed = if bs = [] then s.elapsed else gap + 1
  old : ∀ i, i < s.count.toNat → t.buf.lookup i = s.buf.lookup i
  new : ∀ i, i < bs.length → t.buf.lookup (s.count.toNat + i) = bs[i]?

/-- Bits after a first one. -/
theorem State.Collected.cons {s u t : State} {b : Bit} {bs : List Bit} {gap : Nat} (hfirst : s.Collected [b] gap u)
    (hrest : u.Collected bs gap t) : s.Collected (b :: bs) gap t where
  params := hrest.params.trans hfirst.params
  cfgSite := hrest.cfgSite.trans hfirst.cfgSite
  count := by
    rw [hrest.count, hfirst.count]
    simp only [List.length_cons, List.length_nil]
    omega
  elapsed := by
    rw [hrest.elapsed, hfirst.elapsed]
    simp
  old := fun i hi => by
    rw [hrest.old i (by rw [hfirst.count]; omega), hfirst.old i hi]
  new := fun i hi => by
    have hcount : u.count.toNat = s.count.toNat + 1 := hfirst.count
    cases i with
    | zero => rw [hrest.old _ (by omega), hfirst.new 0 Nat.one_pos, List.getElem?_cons_zero, List.getElem?_cons_zero]
    | succ i =>
      rw [show s.count.toNat + (i + 1) = u.count.toNat + i by omega, hrest.new i (by simpa using hi),
        List.getElem?_cons_succ]

/-- A bit that finds room, and a gap shorter than the quiet interval. -/
theorem runCore_bit {s : State} (b : Bit) {gap : Nat} (hlegal : s.params.Legal) (hfe : s.fe = false)
    (hroom : s.count.toNat < s.params.maxBits) (hgap : gap + 1 ≤ s.params.quietCycles) :
    ∃ t, runCore ((Stmt.ofBit b).input :: List.replicate gap Stmt.nop.input) s = .next t ∧ s.Collected [b] gap t := by
  have hcount := toNat_count_succ hlegal hroom
  have hopen : s.count + 1#7 ≠ 0#7 := fun h => by simp [h] at hcount
  exact ⟨_, (runCore_cons (coreCycle_ofBit_of_room b hlegal hfe hroom)).trans
      (runCore_nops_of_capturing gap hlegal hopen (by rw [Nat.add_comm]; exact hgap)),
    { params := rfl
      cfgSite := rfl
      count := hcount
      elapsed := Nat.add_comm 1 gap
      old := fun i hi => Memory.lookup_write_of_ne _ _ hi.ne
      new := fun i hi => by
        obtain rfl : i = 0 := by simpa using hi
        exact Memory.lookup_write_same _ _ _ }⟩

/-- Where there is room, bits and gaps shorter than the quiet interval build up a frame. -/
theorem runCore_bits {bs : List Bit} {gap : Nat} {s : State} (hlegal : s.params.Legal) (hfe : s.fe = false)
    (hroom : s.count.toNat + bs.length ≤ s.params.maxBits) (hgap : gap + 2 ≤ s.params.quietCycles) :
    ∃ t, runCore (bs.flatMap (fun b => (Stmt.ofBit b).input :: List.replicate gap Stmt.nop.input)) s = .next t ∧
      s.Collected bs gap t := by
  induction bs generalizing s with
  | nil => exact ⟨s, rfl, rfl, rfl, rfl, rfl, fun _ _ => rfl, nofun⟩
  | cons b bs ih =>
    rw [List.length_cons] at hroom
    obtain ⟨u, hu, hfirst⟩ := runCore_bit b (gap := gap) hlegal hfe (by omega) (by omega)
    have hucount : u.count.toNat = s.count.toNat + 1 := hfirst.count
    have hutime : u.elapsed = gap + 1 := hfirst.elapsed
    obtain ⟨t, ht, hrest⟩ := ih (s := u) (hfirst.params ▸ hlegal)
      (State.fe_eq_false_iff.mpr (.inr (by rw [hutime, hfirst.params]; omega)))
      (by rw [hucount, hfirst.params]; omega) (by rwa [hfirst.params])
    exact ⟨t, by rw [List.flatMap_cons, runCore_append hu, ht], hfirst.cons hrest⟩

/-- Settles O60: the bits build up the frame, and the silence after the last gap ends it. -/
theorem wholeFrameIsDecoded : Obligations.WholeFrameIsDecoded := by
  intro s bs gap hlegal hempty _ hbits hroom hgap
  have hlen := List.length_pos_of_ne_nil hbits
  obtain ⟨u, hu, hcollected⟩ := runCore_bits (bs := bs) (gap := gap) hlegal (fe_of_count_zero hempty)
    (by simpa [hempty] using hroom) hgap
  have hcells := hcollected.new
  have hcount := hcollected.count
  have htime := hcollected.elapsed
  rw [hempty, BitVec.toNat_zero, Nat.zero_add] at hcount
  rw [hempty, BitVec.toNat_zero] at hcells
  rw [if_neg hbits] at htime
  obtain ⟨t, ht, -, htbuf, htcount, htelapsed, htvalid, htout⟩ :=
    runCore_nops_to_frame_end (s := u) (n := s.params.quietCycles - gap - 1) (hcollected.params ▸ hlegal)
      (fun h => by rw [h, BitVec.toNat_zero] at hcount; omega) (by rw [hcount, hcollected.params]; exact hroom)
      (by rw [htime, hcollected.params]; omega)
  rw [Nat.sub_add_cancel (by omega)] at ht
  refine ⟨t, by rw [runCore_append hu, ht], fun i hi => ?_, ?_, htvalid, htcount, htelapsed⟩
  · rw [htbuf, ← hcells i hi, Nat.zero_add]
  · rw [htout, htbuf, hcollected.cfgSite, ← hcount, BitVec.ofNat_toNat, BitVec.setWidth_eq]

end Sys2Proof.Machine

/-! The remaining statements on the decoder (spec/42_decode.md, 41_frame_end.md section 3): the two codes of a 26-bit frame,
the mode, and the decode rules as operations. -/

namespace Sys2Proof.Machine

/-! ### The 26-bit formats -/

/-- Settles O43: cells 1 to 8 lie above cells 9 to 24, as they do in the card code without site code. -/
theorem siteCodesJoinToCardCode : Obligations.SiteCodesJoinToCardCode := by
  intro m
  change (resultW26s m).fc.extractLsb' 0 8 ++ (resultW26s m).cc.extractLsb' 0 16 = (resultW26n m).cc
  simp only [resultW26s, resultW26n]
  apply BitVec.eq_of_getLsbD_eq
  intro j hj
  rw [BitVec.getLsbD_append, getLsbD_ofNat_field m (by decide) (by omega)]
  split
  · rename_i hlow
    rw [BitVec.getLsbD_extractLsb', decide_eq_true hlow, Bool.true_and, Nat.zero_add,
      getLsbD_ofNat_field m (by decide) (by omega)]
  · rename_i hhigh
    rw [BitVec.getLsbD_extractLsb', decide_eq_true (by omega), Bool.true_and, Nat.zero_add,
      getLsbD_ofNat_field m (by decide) (by omega)]
    congr 1
    omega

/-- Settles O54: the dispatch looks at the mode for length 26 alone, where the two rules have tags of their own. -/
theorem modeMattersForLength26Only : Obligations.ModeMattersForLength26Only := by
  intro m n
  refine ⟨fun hn => by simp [decodeResult, hn], fun h => ?_⟩
  have htag : (1#3 : BitVec 3) = 0#3 := congrArg Result.fmt h
  exact absurd htag (by decide)

/-! ### The decode rules as operations -/

/-- R171: a decode rule that answers a next state has loaded the result registers. -/
theorem configured_loadDecoded_frame {len : Nat} {r : Result} {s t : State}
    (h : configured s (loadDecoded len r s) = .next t) :
    t = { s with out := t.out } ∧ ∀ a, t.buf.read a = s.buf.read a := by
  obtain ⟨-, hload⟩ := configured_eq_next_iff.mp h
  obtain ⟨-, rfl⟩ := loadDecoded_eq_next_iff.mp hload
  exact ⟨rfl, fun _ => rfl⟩

/-- Settles O49: the six rules differ in how many cells they ask for and in the result they load. -/
theorem decodeRulesFrame : Obligations.DecodeRulesFrame := by
  rintro i s t (rfl | rfl | rfl | rfl | rfl | rfl) h
  · exact configured_loadDecoded_frame (len := 26) h
  · exact configured_loadDecoded_frame (len := 26) h
  · exact configured_loadDecoded_frame (len := 35) h
  · exact configured_loadDecoded_frame (len := 37) h
  · exact configured_loadDecoded_frame (len := 32) h
  · exact configured_loadDecoded_frame (len := 0) h

/-- R50: a buffer shorter than the format has no such cell. -/
theorem configured_loadDecoded_of_lt {len : Nat} (r : Result) {s : State} (hlegal : s.params.Legal)
    (hshort : s.params.maxBits < len) :
    configured s (loadDecoded len r s) = .fault (.noSuchCell s.params.maxBits) := by
  rw [configured_of_legal _ hlegal, loadDecoded, if_neg (Nat.not_le.mpr hshort)]

/-- Settles O48: the rules of 26, 35, 37 and 32 cells. -/
theorem decodeBeyondBufferFaults : Obligations.DecodeBeyondBufferFaults := fun _ hlegal =>
  ⟨fun hshort => ⟨configured_loadDecoded_of_lt _ hlegal hshort, configured_loadDecoded_of_lt _ hlegal hshort⟩,
    fun hshort => configured_loadDecoded_of_lt _ hlegal hshort, fun hshort => configured_loadDecoded_of_lt _ hlegal hshort,
    fun hshort => configured_loadDecoded_of_lt _ hlegal hshort⟩

/-- Settles O51: FEND loads what the selected rule loads. -/
theorem frameEndRunsSelectedRule : Obligations.FrameEndRunsSelectedRule := by
  intro s hlegal hcount
  obtain ⟨-, hfend, -⟩ := frameEndCompletes
  rw [hfend s hlegal hcount, selectedRuleIsDecode s hlegal hcount]
  rfl

end Sys2Proof.Machine
